-- ==== Sys2Proof/Word.lean ====
section
/-! DEFINITION. The word types of the block. -/

namespace Sys2Proof

/-- A byte: an unsigned integer 0 to 255 (R6). -/
abbrev Byte := BitVec 8

/-- A 16-bit word: a command word (R45), a response's data (R46), a register value. -/
abbrev Word := BitVec 16

/-- The index operand of PKT.RD, 0 to 2047 (R48). -/
abbrev Index := BitVec 11

end Sys2Proof
end

