-- ==== Sys2Proof/Syntax.lean ====
section
/-! DEFINITION. The nineteen commands of the opcode map (R47), and the lines of the assembler syntax (R50, R51). -/

namespace Sys2Proof

/-- The packet-size profile, operand `prof` (R44): the 128-byte one or the 1024-byte one. -/
inductive Profile where
  | p128
  | p1K
  deriving DecidableEq, Repr

/-- The integrity mode, operand `mode` (R44): the sum checksum or the CRC16. -/
inductive IntegrityMode where
  | sum
  | crc
  deriving DecidableEq, Repr

/-- The commands, one constructor per row of the opcode map (R47). Each operand has the type of its field (R48), so
every term is an instruction some word encodes. -/
inductive Instr where
  /-- CRC.CLR (R58) -/
  | crcClr
  /-- CRC.UPD b (R59) -/
  | crcUpd (b : Byte)
  /-- CRC.RD (R60) -/
  | crcRd
  /-- SUM.CLR (R61) -/
  | sumClr
  /-- SUM.UPD b (R62) -/
  | sumUpd (b : Byte)
  /-- SUM.RD (R63) -/
  | sumRd
  /-- PAY.CLR (R65) -/
  | payClr
  /-- PAY.PUSH b (R66) -/
  | payPush (b : Byte)
  /-- PKT.CLR (R67) -/
  | pktClr
  /-- PKT.PUSH b (R68) -/
  | pktPush (b : Byte)
  /-- PKT.RD i (R69) -/
  | pktRd (i : Index)
  /-- ENC seq, prof, mode (R72) -/
  | enc (seq : Byte) (prof : Profile) (mode : IntegrityMode)
  /-- VAL expseq, mode (R83) -/
  | val (expseq : Byte) (mode : IntegrityMode)
  /-- HDR.CLS b (R85) -/
  | hdrCls (b : Byte)
  /-- RST (R87) -/
  | rst
  /-- ST.RD (R88) -/
  | stRd
  /-- RES.RD (R89) -/
  | resRd
  /-- PLEN.RD (R90) -/
  | plenRd
  /-- KLEN.RD (R91) -/
  | klenRd
  deriving DecidableEq, Repr

/-- An operand as an assembler line writes it (R50, R51): a number (decimal or hexadecimal), a word (`1K`, `SUM`,
`CRC`), or a string in double quotes, given by its character codes. -/
inductive AsmOperand where
  | num (n : Nat)
  | word (w : String)
  | text (codes : List Nat)
  deriving DecidableEq, Repr

/-- One line of the assembler syntax (R50): a mnemonic and its operands in table order. -/
structure AsmLine where
  mnemonic : String
  operands : List AsmOperand
  deriving DecidableEq, Repr

end Sys2Proof
end

