-- ==== Sys2Proof/Machine/Operands.lean ====
section
/-! DEFINITION. The fields of a command word (R45) and the four operand shapes (R48): every operand is an unsigned
field of `arg`, used as it stands. -/

namespace Sys2Proof.Machine

/-- `opc`, bits 15:12 (R45). -/
def opcOf (w : Word) : BitVec 4 := w.extractLsb' 12 4

/-- `arg`, bits 11:0 (R45). -/
def argOf (w : Word) : BitVec 12 := w.extractLsb' 0 12

/-- The byte operand, and `seq`, `expseq`: `arg[7:0]` (R48). -/
def byteField (arg : BitVec 12) : Byte := arg.extractLsb' 0 8

/-- The index operand: `arg[10:0]` (R48). -/
def indexField (arg : BitVec 12) : Index := arg.extractLsb' 0 11

/-- `prof = arg[8]` of ENC (R48). -/
def profField (arg : BitVec 12) : BitVec 1 := arg.extractLsb' 8 1

/-- `mode = arg[9]` of ENC and VAL (R48). -/
def modeField (arg : BitVec 12) : BitVec 1 := arg.extractLsb' 9 1

/-- `arg[11:8]`, which must be 0 in the byte shape (R48). -/
def aboveByte (arg : BitVec 12) : BitVec 4 := arg.extractLsb' 8 4

/-- `arg[11]`, which must be 0 in the index shape (R48). -/
def aboveIndex (arg : BitVec 12) : BitVec 1 := arg.extractLsb' 11 1

/-- `arg[11:10]`, which must be 0 in the session shape (R48). -/
def aboveMode (arg : BitVec 12) : BitVec 2 := arg.extractLsb' 10 2

/-- The number of a profile: 0 is 128, 1 is 1024 (R44). -/
def profBit : Profile → BitVec 1
  | .p128 => 0
  | .p1K => 1

/-- The profile of a number (R44). -/
def profOfBit (b : BitVec 1) : Profile := if b = 0 then .p128 else .p1K

/-- The number of a mode: 0 is checksum, 1 is CRC16 (R44). -/
def modeBit : IntegrityMode → BitVec 1
  | .sum => 0
  | .crc => 1

/-- The mode of a number (R44). -/
def modeOfBit (b : BitVec 1) : IntegrityMode := if b = 0 then .sum else .crc

/-- `zext_16` (R6): a register or byte widened with zeros to the response's 16 bits. -/
def zext16 {n : Nat} (v : BitVec n) : Word := v.setWidth 16

/-- A command word put together from its two fields (R45). -/
def commandWord (opc : BitVec 4) (arg : BitVec 12) : Word := opc ++ arg

/-- The `arg` of the byte shape (R48): bits 11:8 zero. -/
def byteArg (b : Byte) : BitVec 12 := 0#4 ++ b

/-- The `arg` of the index shape (R48): bit 11 zero. -/
def indexArg (i : Index) : BitVec 12 := 0#1 ++ i

/-- The `arg` of the session shape (R48): bits 11:10 zero, then mode, prof and the byte. -/
def sessionArg (mode prof : BitVec 1) (b : Byte) : BitVec 12 := 0#2 ++ mode ++ prof ++ b

end Sys2Proof.Machine
end

