-- ==== Sys2Proof/WellFormed.lean ====
section
/-! DEFINITION. Well-formedness. An `Instr` cannot be ill-formed: each operand's type is its field of the command
word (R48). What can be ill-formed is an assembler line (R50, R51): an unknown mnemonic, a wrong number or kind of
operands, a number wider than its field (which an assembler must refuse rather than truncate, R129), or a load of
more bytes than the buffer holds. -/

namespace Sys2Proof

/-- The operand kinds of the commands (R48): the session shape's `seq` and `expseq` are bytes. -/
inductive OperandKind where
  | byte
  | index
  | profile
  | mode
  deriving DecidableEq, Repr

/-- A byte operand, `seq` or `expseq`: 8 bits (R48). -/
def fitsByte (n : Nat) : Bool := n < 256

/-- An index operand: 11 bits, 0 to 2047 (R48). -/
def fitsIndex (n : Nat) : Bool := n < 2048

/-- The operand is of the kind and its number fits the field; `prof` is written `128` or `1K`, `mode` is written
`SUM` or `CRC` (R50). -/
def AsmOperand.fits : OperandKind → AsmOperand → Bool
  | .byte, .num n => fitsByte n
  | .index, .num n => fitsIndex n
  | .profile, .num n => n == 128
  | .profile, .word w => w == "1K"
  | .mode, .word w => w == "SUM" || w == "CRC"
  | _, _ => false

/-- The operands of each mnemonic, in table order (R47, R50). -/
def operandKinds : List (String × List OperandKind) :=
  [ ("CRC.CLR", []), ("CRC.UPD", [.byte]), ("CRC.RD", []),
    ("SUM.CLR", []), ("SUM.UPD", [.byte]), ("SUM.RD", []),
    ("PAY.CLR", []), ("PAY.PUSH", [.byte]), ("PKT.CLR", []), ("PKT.PUSH", [.byte]), ("PKT.RD", [.index]),
    ("ENC", [.byte, .profile, .mode]), ("VAL", [.byte, .mode]), ("HDR.CLS", [.byte]),
    ("RST", []), ("ST.RD", []), ("RES.RD", []), ("PLEN.RD", []), ("KLEN.RD", []) ]

/-- The most bytes each pseudo-instruction takes (R51); CRC.OF has no limit. -/
def pseudoLimit : List (String × Option Nat) :=
  [ ("PAY.LOAD", some 1024), ("PKT.LOAD", some 1029), ("CRC.OF", none) ]

/-- The bytes an operand of a pseudo-instruction stands for: a number, or the codes of a quoted string (R51). -/
def AsmOperand.loadCodes : AsmOperand → List Nat
  | .num n => [n]
  | .text codes => codes
  | .word _ => []

/-- An operand of a pseudo-instruction is a byte or a quoted string of bytes (R51). -/
def AsmOperand.fitsLoad : AsmOperand → Bool
  | .num n => fitsByte n
  | .text codes => codes.all fitsByte
  | .word _ => false

/-- The number of bytes is within the limit, where there is one. -/
def withinLimit (n : Nat) : Option Nat → Bool
  | some cap => n ≤ cap
  | none => true

/-- One operand for each kind, each fitting. -/
def fitAll : List OperandKind → List AsmOperand → Bool
  | [], [] => true
  | k :: ks, o :: os => o.fits k && fitAll ks os
  | _, _ => false

/-- A line an assembler accepts (R50, R51, R129). -/
def AsmLine.wellFormed (l : AsmLine) : Bool :=
  match operandKinds.lookup l.mnemonic with
  | some kinds => fitAll kinds l.operands
  | none =>
    match pseudoLimit.lookup l.mnemonic with
    | some limit => l.operands.all AsmOperand.fitsLoad && withinLimit (l.operands.flatMap AsmOperand.loadCodes).length limit
    | none => false

end Sys2Proof
end

