-- ==== Sys2Proof/Decode.lean ====
section
/-! DEFINITION. The decoder of command words, total, with a named reason for each class of illegal words (R47, R49),
and after it the encoder and the opcode map as the spec's table gives it. -/

namespace Sys2Proof

open Sys2Proof.Machine

/-- Why a word is illegal: the seven classes (a) to (g) of R49. -/
inductive IllegalWord where
  /-- (a) opc 0x0 -/
  | opcodeZero
  /-- (b) a command without operands with `arg` not 0 -/
  | argNotZero
  /-- (c) a byte command with `arg[11:8]` not 0 -/
  | aboveByteNotZero
  /-- (d) PKT.RD with `arg[11] = 1` -/
  | aboveIndexNotZero
  /-- (e) ENC with `arg[11:10]` not 0 -/
  | encReserved
  /-- (f) VAL with `arg[11:10]` not 0 or `arg[8] = 1` -/
  | valReserved
  /-- (g) opc 0xF with `arg` above 0x004 -/
  | sysUnassigned
  deriving DecidableEq, Repr

/-- A command of shape none: `arg` must be 0 (R48). -/
def plainShape (i : Instr) (arg : BitVec 12) : Except IllegalWord Instr :=
  if arg = 0 then .ok i else .error .argNotZero

/-- A command of shape byte: `arg[11:8]` must be 0 (R48). -/
def byteShape (mk : Byte → Instr) (arg : BitVec 12) : Except IllegalWord Instr :=
  if aboveByte arg = 0 then .ok (mk (byteField arg)) else .error .aboveByteNotZero

/-- PKT.RD, shape index: `arg[11]` must be 0 (R48). -/
def indexShape (arg : BitVec 12) : Except IllegalWord Instr :=
  if aboveIndex arg = 0 then .ok (.pktRd (indexField arg)) else .error .aboveIndexNotZero

/-- ENC, shape session: `arg[11:10]` must be 0 (R48). -/
def encShape (arg : BitVec 12) : Except IllegalWord Instr :=
  if aboveMode arg = 0 then .ok (.enc (byteField arg) (profOfBit (profField arg)) (modeOfBit (modeField arg)))
  else .error .encReserved

/-- VAL, shape session: `arg[11:10]` and `arg[8]` must be 0 (R48). -/
def valShape (arg : BitVec 12) : Except IllegalWord Instr :=
  if aboveMode arg = 0 ∧ profField arg = 0 then .ok (.val (byteField arg) (modeOfBit (modeField arg)))
  else .error .valReserved

/-- The SYS group, opc 0xF: the sub-opcode is the whole `arg` (R47, R48). -/
def sysShape (arg : BitVec 12) : Except IllegalWord Instr :=
  match arg.toNat with
  | 0 => .ok .rst
  | 1 => .ok .stRd
  | 2 => .ok .resRd
  | 3 => .ok .plenRd
  | 4 => .ok .klenRd
  | _ => .error .sysUnassigned

/-- The decoder: the command a word stands for (R47), or the class that makes it illegal (R49). -/
def decode (w : Word) : Except IllegalWord Instr :=
  let arg := argOf w
  match (opcOf w).toNat with
  | 0x0 => .error .opcodeZero
  | 0x1 => plainShape .crcClr arg
  | 0x2 => byteShape .crcUpd arg
  | 0x3 => plainShape .crcRd arg
  | 0x4 => plainShape .sumClr arg
  | 0x5 => byteShape .sumUpd arg
  | 0x6 => plainShape .sumRd arg
  | 0x7 => plainShape .payClr arg
  | 0x8 => byteShape .payPush arg
  | 0x9 => plainShape .pktClr arg
  | 0xA => byteShape .pktPush arg
  | 0xB => indexShape arg
  | 0xC => encShape arg
  | 0xD => valShape arg
  | 0xE => byteShape .hdrCls arg
  | _ => sysShape arg

/-- The word of a command (R47). -/
def encode : Instr → Word
  | .crcClr => commandWord 0x1 0
  | .crcUpd b => commandWord 0x2 (byteArg b)
  | .crcRd => commandWord 0x3 0
  | .sumClr => commandWord 0x4 0
  | .sumUpd b => commandWord 0x5 (byteArg b)
  | .sumRd => commandWord 0x6 0
  | .payClr => commandWord 0x7 0
  | .payPush b => commandWord 0x8 (byteArg b)
  | .pktClr => commandWord 0x9 0
  | .pktPush b => commandWord 0xA (byteArg b)
  | .pktRd i => commandWord 0xB (indexArg i)
  | .enc seq prof mode => commandWord 0xC (sessionArg (modeBit mode) (profBit prof) seq)
  | .val expseq mode => commandWord 0xD (sessionArg (modeBit mode) 0 expseq)
  | .hdrCls b => commandWord 0xE (byteArg b)
  | .rst => commandWord 0xF 0
  | .stRd => commandWord 0xF 1
  | .resRd => commandWord 0xF 2
  | .plenRd => commandWord 0xF 3
  | .klenRd => commandWord 0xF 4

/-- The mnemonic of a command (R47). -/
def mnemonicOf : Instr → String
  | .crcClr => "CRC.CLR"
  | .crcUpd _ => "CRC.UPD"
  | .crcRd => "CRC.RD"
  | .sumClr => "SUM.CLR"
  | .sumUpd _ => "SUM.UPD"
  | .sumRd => "SUM.RD"
  | .payClr => "PAY.CLR"
  | .payPush _ => "PAY.PUSH"
  | .pktClr => "PKT.CLR"
  | .pktPush _ => "PKT.PUSH"
  | .pktRd _ => "PKT.RD"
  | .enc _ _ _ => "ENC"
  | .val _ _ => "VAL"
  | .hdrCls _ => "HDR.CLS"
  | .rst => "RST"
  | .stRd => "ST.RD"
  | .resRd => "RES.RD"
  | .plenRd => "PLEN.RD"
  | .klenRd => "KLEN.RD"

/-- A row of the opcode map (R47): a word `w` selects it when `w AND mask = pattern`. -/
structure OpcodeRow where
  mnemonic : String
  pattern : Word
  mask : Word
  deriving DecidableEq, Repr

/-- The opcode map, transcribed from the table of R47. -/
def opcodeMap : List OpcodeRow :=
  [ ⟨"CRC.CLR", 0x1000, 0xFFFF⟩, ⟨"CRC.UPD", 0x2000, 0xFF00⟩, ⟨"CRC.RD", 0x3000, 0xFFFF⟩,
    ⟨"SUM.CLR", 0x4000, 0xFFFF⟩, ⟨"SUM.UPD", 0x5000, 0xFF00⟩, ⟨"SUM.RD", 0x6000, 0xFFFF⟩,
    ⟨"PAY.CLR", 0x7000, 0xFFFF⟩, ⟨"PAY.PUSH", 0x8000, 0xFF00⟩,
    ⟨"PKT.CLR", 0x9000, 0xFFFF⟩, ⟨"PKT.PUSH", 0xA000, 0xFF00⟩, ⟨"PKT.RD", 0xB000, 0xF800⟩,
    ⟨"ENC", 0xC000, 0xFC00⟩, ⟨"VAL", 0xD000, 0xFD00⟩, ⟨"HDR.CLS", 0xE000, 0xFF00⟩,
    ⟨"RST", 0xF000, 0xFFFF⟩, ⟨"ST.RD", 0xF001, 0xFFFF⟩, ⟨"RES.RD", 0xF002, 0xFFFF⟩,
    ⟨"PLEN.RD", 0xF003, 0xFFFF⟩, ⟨"KLEN.RD", 0xF004, 0xFFFF⟩ ]

/-- The word selects the row (R47). -/
def OpcodeRow.selects (r : OpcodeRow) (w : Word) : Bool := w &&& r.mask == r.pattern

/-- The command word whose low `nbits` bits are those of `w` and whose other bits are 0. The port carries a command
as one 16-bit word (R45), so no byte order enters. DEDUCED (log entry 15). -/
def tableWord (nbits w : Nat) : Word := BitVec.ofNat 16 (w % 2 ^ nbits)

/-- The decoder on a row of spec/opcode_table.json, whose bit 0 is the word's bit 0. -/
def decodeTableWord (nbits w : Nat) : Option Instr :=
  match decode (tableWord nbits w) with
  | .ok i => some i
  | .error _ => none

end Sys2Proof
end

