-- ==== Sys2Proof/Machine/State.lean ====
section
/-! DEFINITION. The state of the block (R10), the command port's two fields beside it (R45, R46), the reasons a step
can stop, and the state after power-on reset (R23). -/

namespace Sys2Proof.Machine

/-- A byte memory (R24): the cells that hold a value, as address and byte, addresses strictly rising. A cell that is
not listed holds no value: not 0, not the byte last stored there (R20; log entry 4). -/
abbrev Memory := List Host.Cell

/-- What a command returns (R46): `Ok(data)` with 16 bits, or `Fault(code)` with 4 bits. -/
inductive Response where
  | ok (data : Word)
  | fault (code : BitVec 4)
  deriving DecidableEq, Repr

/-- The state: the eight components of R10, and the model's own two fields for the command port. -/
structure State where
  /-- CRC, the running CRC16 (R11) -/
  crc : BitVec 16
  /-- SUM, the running checksum (R12) -/
  sum : BitVec 8
  /-- PLEN, the number of valid bytes in PAY (R16) -/
  plen : BitVec 11
  /-- KLEN, the number of valid bytes in PKT (R17) -/
  klen : BitVec 11
  /-- RESULT: VERDICT, REASON and RPROF of the last VAL (R15) -/
  result : BitVec 16
  /-- STATUS: ERR and ECODE (R14) -/
  status : BitVec 16
  /-- PAY, the chunk to encode (R18) -/
  pay : Memory
  /-- PKT, the packet encoded or to be validated (R19) -/
  pkt : Memory
  /-- DESIGN CHOICE (log entry 1). The port's input: the command words the host has still to issue, the next first
  (R45, R124). -/
  cmds : List (BitVec 16)
  /-- DESIGN CHOICE (log entry 3). The port's output: the response to the last command, absent before the first
  (R46). -/
  resp : Option Response
  deriving DecidableEq, Repr

/-- Why the model stops. The block's own faults E_ILLEGAL to E_HALTED are no such reason: they are next states (R112,
R113). Both reasons stand for states the invariants of R16 to R19 exclude; no run from reset meets one, and
`Obligations.StepKeepsInvariantAndNeverStops` states it. -/
inductive Fault where
  /-- A cell that holds no value was to be read: raised by ENC, VAL and PKT.RD where PLEN or KLEN counts a cell of
  PAY or PKT that holds none. Safe: the model stops instead of inventing a byte (R20; log entry 4). -/
  | noValue
  /-- A cell beyond the memory was to be written: raised by PAY.PUSH where PLEN exceeds 1024 and by PKT.PUSH where KLEN
  exceeds 1029. Safe: the model stops where the spec has no such cell (R24; log entry 5). -/
  | noSuchCell
  deriving DecidableEq, Repr

/-- Why the model has no meaning for an instruction. -/
inductive Refusal where
  /-- The instruction has no meaning yet. Raised by no arm: every command of the opcode map is modelled. Safe. -/
  | notModelled (mnemonic : String)
  deriving DecidableEq, Repr

/-- The machine right after power-on reset (R23): every register 0, no cell with a value, not halted; no response has
been given (R122) and the host has issued nothing. -/
def State.reset : State :=
  { crc := 0x0000, sum := 0x00, plen := 0, klen := 0, result := 0x0000, status := 0x0000,
    pay := [], pkt := [], cmds := [], resp := none }

end Sys2Proof.Machine
end

