-- ==== Sys2Proof/Machine/Flags.lean ====
section
/-! DEFINITION. The fields of STATUS (R14) and of RESULT (R15), the fault codes (R110) and the verdict and reason
codes (R83). ERR is the block's only flag; no command computes a condition code (R14). -/

namespace Sys2Proof.Machine

/-- STATUS.ERR, bit 0 (R14). -/
def statusErr (v : Word) : BitVec 1 := v.extractLsb' 0 1

/-- STATUS.ECODE, bits 7:4 (R14). -/
def statusEcode (v : Word) : BitVec 4 := v.extractLsb' 4 4

/-- STATUS put together: bits 15:8 and 3:1 read 0 (R14, R88). -/
def packStatus (ecode : BitVec 4) (err : BitVec 1) : Word := 0#8 ++ ecode ++ 0#3 ++ err

/-- Whether the block is halted: STATUS.ERR = 1 (R113). -/
def halted (s : State) : Bool := statusErr s.status == 1

/-- STATUS as a read gives it (R88): the reserved bits read 0 whatever is stored. DEDUCED (log entry 6). -/
def readStatus (s : State) : Word := packStatus (statusEcode s.status) (statusErr s.status)

/-- RESULT.VERDICT, bits 1:0 (R15). -/
def resultVerdict (v : Word) : BitVec 2 := v.extractLsb' 0 2

/-- RESULT.REASON, bits 4:2 (R15). -/
def resultReason (v : Word) : BitVec 3 := v.extractLsb' 2 3

/-- RESULT.RPROF, bit 5 (R15). -/
def resultRprof (v : Word) : BitVec 1 := v.extractLsb' 5 1

/-- RESULT put together: bits 15:6 read 0 (R15, R83). -/
def packResult (rprof : BitVec 1) (reason : BitVec 3) (verdict : BitVec 2) : Word := 0#10 ++ rprof ++ reason ++ verdict

/-- RESULT as a read gives it (R89): the reserved bits read 0 whatever is stored. DEDUCED (log entry 6). -/
def readResult (s : State) : Word := packResult (resultRprof s.result) (resultReason s.result) (resultVerdict s.result)

/-- The faults of the block (R110). -/
inductive BlockFault where
  /-- E_ILLEGAL: the word matches no row of the opcode map -/
  | illegal
  /-- E_PAYOVF: PAY.PUSH with PLEN = 1024 -/
  | payOverflow
  /-- E_PKTOVF: PKT.PUSH with KLEN = 1029 -/
  | pktOverflow
  /-- E_PAYLEN: ENC with PLEN above the profile's size -/
  | payLength
  /-- E_INDEX: PKT.RD at or above KLEN -/
  | index
  /-- E_HALTED: a command refused while halted; in responses only -/
  | halted
  deriving DecidableEq, Repr

/-- The code of a fault (R110). -/
def faultCode : BlockFault → BitVec 4
  | .illegal => 1
  | .payOverflow => 2
  | .pktOverflow => 3
  | .payLength => 4
  | .index => 5
  | .halted => 6

/-- The three outcomes of validation (R73). -/
inductive Verdict where
  | accepted
  | duplicateOfPrevious
  | rejected
  deriving DecidableEq, Repr

/-- Why a packet is rejected: the check that failed first (R80). -/
inductive Reason where
  | noReason
  | length
  | header
  | complement
  | trailer
  | sequence
  deriving DecidableEq, Repr

/-- `verdict_code` (R83). -/
def verdictCode : Verdict → BitVec 2
  | .accepted => 1
  | .duplicateOfPrevious => 2
  | .rejected => 3

/-- `reason_code` (R83). -/
def reasonCode : Reason → BitVec 3
  | .noReason => 0
  | .length => 1
  | .header => 2
  | .complement => 3
  | .trailer => 4
  | .sequence => 5

end Sys2Proof.Machine
end

