-- ==== Sys2Proof/Machine/Params.lean ====
section
/-! DEFINITION. The sizes and wire constants of the block (R5, R36) and the helper functions of the packet format
(R38). -/

namespace Sys2Proof.Machine

/-- Payload bytes of the 128-byte profile (R5). -/
def SIZE_128 : Nat := 128

/-- Payload bytes of the 1024-byte profile (R5). -/
def SIZE_1K : Nat := 1024

/-- Header of a 128-byte data packet (R36). -/
def HDR_128 : Byte := 0x01

/-- Header of a 1024-byte data packet (R36). -/
def HDR_1K : Byte := 0x02

/-- END-OF-TRANSMISSION (R36). -/
def EOT : Byte := 0x04

/-- Acknowledge (R36): the host's; the block does not use it. -/
def ACK : Byte := 0x06

/-- Negative-acknowledge (R36): the host's; the block does not use it. -/
def NAK : Byte := 0x15

/-- CANCEL (R36). -/
def CAN : Byte := 0x18

/-- The fill byte (R36). -/
def FILL : Byte := 0x1A

/-- Cells of PAY (R5). -/
def PAY_CAP : Nat := 1024

/-- Cells of PKT, the longest packet (R5). -/
def PKT_CAP : Nat := 1029

/-- `size(prof)` (R38). -/
def size : Profile → Nat
  | .p128 => SIZE_128
  | .p1K => SIZE_1K

/-- `tlen(mode)` (R38). -/
def tlen : IntegrityMode → Nat
  | .sum => 1
  | .crc => 2

/-- `hdr(prof)` (R38). -/
def hdr : Profile → Byte
  | .p128 => HDR_128
  | .p1K => HDR_1K

/-- The length of a data packet (R38). -/
def packetLength (prof : Profile) (mode : IntegrityMode) : Nat := 3 + size prof + tlen mode

/-- The two bytes of a 16-bit datum in memory order: the more significant first (R28). -/
def beBytes (v : Word) : List Byte := [v.extractLsb' 8 8, v.extractLsb' 0 8]

/-- The 16-bit datum of two bytes, the one at the lower address first (R28). -/
def beWord (high low : Byte) : Word := high ++ low

end Sys2Proof.Machine
end

