-- ==== Sys2Proof/Machine/Ops.lean ====
section
/-! DEFINITION. The named operations over the memories and the port: reading and writing cells, ending a command
`Ok`, taking a fault (R112), refusing a command while halted (R113), and leaving the halt by reset (R114). -/

namespace Sys2Proof.Machine

/-- The outcome of a command. -/
abbrev Result := Host.Outcome State Fault Refusal

/-- `MemRead(S, a, 1)` (R6): the byte of a cell, nothing where the cell holds no value (R20). -/
def Memory.read : Memory → Nat → Option Byte
  | [], _ => none
  | (k, b) :: m, a => if k = a then some b else Memory.read m a

/-- `MemWrite(S, a, 1, v)` (R6), in the canonical form: the cell is inserted in address order, or replaced. -/
def Memory.write : Memory → Nat → Byte → Memory
  | [], a, v => [(a, v)]
  | (k, b) :: m, a, v =>
    if a < k then (a, v) :: (k, b) :: m
    else if a = k then (a, v) :: m
    else (k, b) :: Memory.write m a v

/-- `MemRead(S, a, 2)` (R6): two cells, the byte at the lower address the more significant (R28). -/
def Memory.readWord (m : Memory) (a : Nat) : Option Word :=
  match m.read a, m.read (a + 1) with
  | some high, some low => some (beWord high low)
  | _, _ => none

/-- `MemWrite(S, a, 2, v)` (R6): `v[15:8]` at `a`, `v[7:0]` at `a+1` (R28). -/
def Memory.writeWord (m : Memory) (a : Nat) (v : Word) : Memory :=
  (m.write a (v.extractLsb' 8 8)).write (a + 1) (v.extractLsb' 0 8)

/-- The bytes of the `n` cells from `a` up, read one by one; nothing where one of them holds no value. -/
def Memory.readRange (m : Memory) (a : Nat) : Nat → Option (List Byte)
  | 0 => some []
  | n + 1 =>
    match m.read a with
    | none => none
    | some b => (m.readRange (a + 1) n).map (b :: ·)

/-- The memory whose cells from `a` up hold the bytes and whose other cells hold no value. -/
def Memory.cellsFrom (a : Nat) : List Byte → Memory
  | [] => []
  | b :: bs => (a, b) :: Memory.cellsFrom (a + 1) bs

/-- The addresses strictly rise from `lo` on and are below `cap`. -/
def Memory.risesFrom (cap lo : Nat) : Memory → Bool
  | [] => true
  | (k, _) :: m => lo ≤ k && k < cap && Memory.risesFrom cap (k + 1) m

/-- The canonical form of a memory of `cap` cells: addresses strictly rising, all of them cells of the memory. No
entry can equal what an unlisted cell reads as, since an unlisted cell holds no value. -/
def Memory.wf (cap : Nat) (m : Memory) : Bool := m.risesFrom cap 0

/-- Exactly the cells below `n` hold a value (R18, R19, R20). -/
abbrev Memory.filled (m : Memory) (n : Nat) : Prop := m.map Prod.fst = List.range n

/-- End a command with a response. -/
def respond (r : Response) (s : State) : State := { s with resp := some r }

/-- `resp <- Ok(v)` (R6): the command was performed. -/
def answer (v : Word) (s : State) : Result := .next (respond (.ok v) s)

/-- Fault entry (R112): STATUS.ERR <- 1, STATUS.ECODE <- code, the response is the fault, all else is kept. -/
def takeFault (f : BlockFault) (s : State) : State :=
  respond (.fault (faultCode f)) { s with status := packStatus (faultCode f) 1 }

/-- `raise Fault(code)` (R6): the command ends with none of its effect. -/
def raise (f : BlockFault) (s : State) : Result := .next (takeFault f s)

/-- The refusal of a command while halted (R113): no change of the state, the response is Fault(E_HALTED), which is
not recorded (R110). -/
def refuseHalted (s : State) : State := respond (.fault (faultCode .halted)) s

/-- The first check on every command but RST and ST.RD (R111): a halted block refuses it. -/
def unlessHalted (s : State) (command : Result) : Result :=
  if halted s then .next (refuseHalted s) else command

/-- Reset (R23, R87, R122), the only way out of the halt (R114). The port's fields are not the block's state: the
words the host has still to issue stay. DESIGN CHOICE (log entry 3). -/
def resetBlock (s : State) : State :=
  { s with crc := 0x0000, sum := 0x00, plen := 0, klen := 0, result := 0x0000, status := 0x0000, pay := [], pkt := [] }

/-- A word that selects no row of the opcode map (R49, R111): refused while halted, else E_ILLEGAL. -/
def illegalWord (s : State) : Result := unlessHalted s (raise .illegal s)

/-- The append address mode (R64): the byte goes to cell `a` of a memory of `cap` cells. -/
def appendByte (cap : Nat) (m : Memory) (a : Nat) (b : Byte) : Except Fault Memory :=
  if a < cap then .ok (m.write a b) else .error .noSuchCell

/-- The next command word of the host, taken off the port (R45), and the state that performs it. -/
def takeCommand (s : State) : Option (Word × State) :=
  match s.cmds with
  | [] => none
  | w :: rest => some (w, { s with cmds := rest })

/-- The host presents `w` as the very next command word. -/
def presentCommand (w : Word) (s : State) : State := { s with cmds := w :: s.cmds }

end Sys2Proof.Machine
end

