-- ==== Sys2Proof/Machine/Buffers.lean ====
section
/-! DEFINITION. The buffer commands (R65 to R69). -/

namespace Sys2Proof.Machine

/-- PAY.CLR (R65): after it no cell of PAY holds a value (R20). -/
def execPayClr (s : State) : Result :=
  unlessHalted s (answer 0x0000 { s with plen := 0, pay := [] })

/-- PAY.PUSH b (R66). -/
def execPayPush (b : Byte) (s : State) : Result :=
  unlessHalted s
    (if s.plen.toNat = PAY_CAP then raise .payOverflow s
     else match appendByte PAY_CAP s.pay s.plen.toNat b with
       | .error f => .fault f
       | .ok m => answer (zext16 (s.plen + 1)) { s with pay := m, plen := s.plen + 1 })

/-- PKT.CLR (R67): after it no cell of PKT holds a value; RESULT stays. -/
def execPktClr (s : State) : Result :=
  unlessHalted s (answer 0x0000 { s with klen := 0, pkt := [] })

/-- PKT.PUSH b (R68). -/
def execPktPush (b : Byte) (s : State) : Result :=
  unlessHalted s
    (if s.klen.toNat = PKT_CAP then raise .pktOverflow s
     else match appendByte PKT_CAP s.pkt s.klen.toNat b with
       | .error f => .fault f
       | .ok m => answer (zext16 (s.klen + 1)) { s with pkt := m, klen := s.klen + 1 })

/-- PKT.RD i (R69). -/
def execPktRd (i : Index) (s : State) : Result :=
  unlessHalted s
    (if i.toNat ≥ s.klen.toNat then raise .index s
     else match s.pkt.read i.toNat with
       | none => .fault .noValue
       | some b => answer (zext16 b) s)

end Sys2Proof.Machine
end

