-- ==== Sys2Proof/Config.lean ====
section
/-! DEFINITION. The block's one configuration field (R5, R10, R54): the CRC function. Its value for this hardware is
`Sys2Proof.Machine.hardware` (Machine/Integrity.lean). The model has no free value: no command leaves a result
undefined. -/

namespace Sys2Proof

/-- The configuration of a block. `crcFn` is CRC_FN (R5): a total function from byte lists to 16 bits that depends
on the bytes alone (93_implementation_defined.md U3). The encoder and the validator take it as an argument, so that a
claim that does not depend on the polynomial is proved for every one. -/
structure Config where
  crcFn : List Byte → Word

end Sys2Proof
end

