-- ==== Sys2Proof/Machine/Integrity.lean ====
section
/-! DEFINITION. The integrity functions (R52, R55, R56) and the streaming CRC and checksum commands (R58 to R63). -/

namespace Sys2Proof.Machine

/-- `sum8` (R52): the unsigned sum of the bytes, mod 256. -/
def sum8 (xs : List Byte) : Byte := BitVec.ofNat 8 (xs.map BitVec.toNat).sum

/-- One iteration of R55: shift left by one; where the bit shifted out is 1, XOR the polynomial 0x1021. -/
def crcShift (c : Word) : Word := if c.msb then (c <<< 1) ^^^ 0x1021 else c <<< 1

/-- `repeat n times` of R55. -/
def crcShifts : Nat → Word → Word
  | 0, c => c
  | n + 1, c => crcShifts n (crcShift c)

/-- `crc_step` (R55): the byte into the high byte, then eight iterations. -/
def crcStep (c : Word) (b : Byte) : Word := crcShifts 8 (c ^^^ (b ++ 0#8))

/-- `crc16` (R56): the fold of `crc_step` from 0x0000, in list order. -/
def crc16 (xs : List Byte) : Word := xs.foldl crcStep 0x0000

/-- This hardware's configuration: CRC_FN is the function of R56. UNVERIFIED (log entry 7): the spec takes it from
general knowledge of the protocol. -/
def hardware : Config := { crcFn := crc16 }

/-- CRC.CLR (R58). DEDUCED (log entry 12): the streaming commands use the values of R58 and R59 themselves, not the
configuration field. -/
def execCrcClr (s : State) : Result :=
  unlessHalted s (answer 0x0000 { s with crc := 0x0000 })

/-- CRC.UPD b (R59). -/
def execCrcUpd (b : Byte) (s : State) : Result :=
  unlessHalted s (answer (crcStep s.crc b) { s with crc := crcStep s.crc b })

/-- CRC.RD (R60). -/
def execCrcRd (s : State) : Result :=
  unlessHalted s (answer s.crc s)

/-- SUM.CLR (R61). -/
def execSumClr (s : State) : Result :=
  unlessHalted s (answer 0x0000 { s with sum := 0x00 })

/-- SUM.UPD b (R62): the carry out of bit 7 is recorded nowhere. -/
def execSumUpd (b : Byte) (s : State) : Result :=
  unlessHalted s (answer (zext16 (s.sum + b)) { s with sum := s.sum + b })

/-- SUM.RD (R63). -/
def execSumRd (s : State) : Result :=
  unlessHalted s (answer (zext16 s.sum) s)

end Sys2Proof.Machine
end

