-- ==== Sys2Proof/Machine/Encoder.lean ====
section
/-! DEFINITION. The packet encoder (R70) and the command ENC (R72). -/

namespace Sys2Proof.Machine

/-- The padded payload (R37, R70): the chunk, then fill bytes up to the profile's size. -/
def padded (prof : Profile) (chunk : List Byte) : List Byte :=
  chunk ++ List.replicate (size prof - chunk.length) FILL

/-- The trailer (R40): over the payload bytes only, fill bytes included; the CRC high byte first (R28). -/
def trailer (crcFn : List Byte → Word) (mode : IntegrityMode) (payload : List Byte) : List Byte :=
  match mode with
  | .sum => [sum8 payload]
  | .crc => beBytes (crcFn payload)

/-- The complement byte (R39). -/
def complement (seq : Byte) : Byte := 255 - seq

/-- `encode(seq, chunk, prof, mode)` (R70), on its domain `chunk.length ≤ size prof`; outside it the spec has no
value, and ENC, its only user, faults there. DESIGN CHOICE (log entry 8). -/
def encodePacket (crcFn : List Byte → Word) (seq : Byte) (chunk : List Byte) (prof : Profile) (mode : IntegrityMode) :
    List Byte :=
  [hdr prof, seq, complement seq] ++ padded prof chunk ++ trailer crcFn mode (padded prof chunk)

/-- PKT <- the packet, KLEN <- its length, and the length is the response (R72). The cells above it hold no value. -/
def storePacket (packet : List Byte) (s : State) : Result :=
  answer (BitVec.ofNat 16 packet.length)
    { s with pkt := Memory.cellsFrom 0 packet, klen := BitVec.ofNat 11 packet.length }

/-- ENC seq, prof, mode (R72). -/
def execEnc (seq : Byte) (prof : Profile) (mode : IntegrityMode) (s : State) : Result :=
  unlessHalted s
    (if s.plen.toNat > size prof then raise .payLength s
     else match s.pay.readRange 0 s.plen.toNat with
       | none => .fault .noValue
       | some chunk => storePacket (encodePacket hardware.crcFn seq chunk prof mode) s)

end Sys2Proof.Machine
end

