-- ==== Sys2Proof/Machine/System.lean ====
section
/-! DEFINITION. The system commands (R87 to R91). RST and ST.RD are the two commands performed while halted (R86). -/

namespace Sys2Proof.Machine

/-- RST (R87): performed in every state, halted or not. -/
def execRst (s : State) : Result := answer 0x0000 (resetBlock s)

/-- ST.RD (R88): performed in every state, halted or not. -/
def execStRd (s : State) : Result := answer (readStatus s) s

/-- RES.RD (R89). -/
def execResRd (s : State) : Result := unlessHalted s (answer (readResult s) s)

/-- PLEN.RD (R90). -/
def execPlenRd (s : State) : Result := unlessHalted s (answer (zext16 s.plen) s)

/-- KLEN.RD (R91). -/
def execKlenRd (s : State) : Result := unlessHalted s (answer (zext16 s.klen) s)

end Sys2Proof.Machine
end

