-- ==== Sys2Proof/Machine/Validator.lean ====
section
/-! DEFINITION. The validator (R74), the header classes (R84), and the commands VAL (R83) and HDR.CLS (R85). -/

namespace Sys2Proof.Machine

/-- What `validate` gives (R74): a verdict, a reason and the profile bit. -/
structure Validation where
  verdict : Verdict
  reason : Reason
  rprof : BitVec 1
  deriving DecidableEq, Repr

/-- Byte `i` of a raw packet; used below its length only (R74). DESIGN CHOICE (log entry 8): 0 elsewhere, where no check
looks. -/
def byteAt (raw : List Byte) (i : Nat) : Byte := raw.getD i 0

/-- The payload of a raw packet: `raw[3 .. 3+N)` (R74). -/
def payloadOf (prof : Profile) (raw : List Byte) : List Byte := (raw.drop 3).take (size prof)

/-- The profile a data header selects, if the byte is a data header (R75). -/
def dataHeader (b : Byte) : Option Profile :=
  if b = HDR_128 then some .p128 else if b = HDR_1K then some .p1K else none

/-- The trailer check (R78): the received trailer is that of the payload as received, under the call's mode. -/
def trailerVerifies (crcFn : List Byte → Word) (prof : Profile) (mode : IntegrityMode) (raw : List Byte) : Bool :=
  match mode with
  | .sum => byteAt raw (3 + size prof) == sum8 (payloadOf prof raw)
  | .crc => beWord (byteAt raw (3 + size prof)) (byteAt raw (3 + size prof + 1)) == crcFn (payloadOf prof raw)

/-- The sequence check (R79), made last. -/
def sequenceVerdict (seq expseq : Byte) (rprof : BitVec 1) : Validation :=
  if seq = expseq then ⟨.accepted, .noReason, rprof⟩
  else if seq = expseq - 1 then ⟨.duplicateOfPrevious, .noReason, rprof⟩
  else ⟨.rejected, .sequence, rprof⟩

/-- The checks on a packet with a data header, in the order of R74. -/
def validateBody (crcFn : List Byte → Word) (prof : Profile) (raw : List Byte) (expseq : Byte) (mode : IntegrityMode) :
    Validation :=
  if raw.length ≠ packetLength prof mode then ⟨.rejected, .length, profBit prof⟩
  else if byteAt raw 2 ≠ complement (byteAt raw 1) then ⟨.rejected, .complement, profBit prof⟩
  else if trailerVerifies crcFn prof mode raw then sequenceVerdict (byteAt raw 1) expseq (profBit prof)
  else ⟨.rejected, .trailer, profBit prof⟩

/-- `validate(raw, expseq, mode)` (R74). -/
def validate (crcFn : List Byte → Word) (raw : List Byte) (expseq : Byte) (mode : IntegrityMode) : Validation :=
  match raw with
  | [] => ⟨.rejected, .length, 0⟩
  | b :: _ =>
    match dataHeader b with
    | none => ⟨.rejected, .header, 0⟩
    | some prof => validateBody crcFn prof raw expseq mode

/-- The RESULT word of a validation (R83). -/
def resultWord (v : Validation) : Word := packResult v.rprof (reasonCode v.reason) (verdictCode v.verdict)

/-- RESULT <- the validation, and the new RESULT is the response (R83). -/
def storeResult (v : Validation) (s : State) : Result := answer (resultWord v) { s with result := resultWord v }

/-- VAL expseq, mode (R83). -/
def execVal (expseq : Byte) (mode : IntegrityMode) (s : State) : Result :=
  unlessHalted s
    (match s.pkt.readRange 0 s.klen.toNat with
     | none => .fault .noValue
     | some raw => storeResult (validate hardware.crcFn raw expseq mode) s)

/-- `classify(b)` (R84). -/
def classify (b : Byte) : Nat :=
  if b = HDR_128 then 1
  else if b = HDR_1K then 2
  else if b = EOT then 3
  else if b = CAN then 4
  else 0

/-- HDR.CLS b (R85). -/
def execHdrCls (b : Byte) (s : State) : Result :=
  unlessHalted s (answer (BitVec.ofNat 16 (classify b)) s)

end Sys2Proof.Machine
end

