-- ==== Sys2Proof/Machine/Dispatch.lean ====
section
/-! DEFINITION. Which meaning each command of the opcode map has (R47). -/

namespace Sys2Proof.Machine

def exec (i : Instr) (s : State) : Host.Outcome State Fault Refusal :=
  match i with
  | .crcClr => Sys2Proof.Machine.execCrcClr s
  | .crcUpd b => Sys2Proof.Machine.execCrcUpd b s
  | .crcRd => Sys2Proof.Machine.execCrcRd s
  | .sumClr => Sys2Proof.Machine.execSumClr s
  | .sumUpd b => Sys2Proof.Machine.execSumUpd b s
  | .sumRd => Sys2Proof.Machine.execSumRd s
  | .payClr => Sys2Proof.Machine.execPayClr s
  | .payPush b => Sys2Proof.Machine.execPayPush b s
  | .pktClr => Sys2Proof.Machine.execPktClr s
  | .pktPush b => Sys2Proof.Machine.execPktPush b s
  | .pktRd index => Sys2Proof.Machine.execPktRd index s
  | .enc seq prof mode => Sys2Proof.Machine.execEnc seq prof mode s
  | .val expseq mode => Sys2Proof.Machine.execVal expseq mode s
  | .hdrCls b => Sys2Proof.Machine.execHdrCls b s
  | .rst => Sys2Proof.Machine.execRst s
  | .stRd => Sys2Proof.Machine.execStRd s
  | .resRd => Sys2Proof.Machine.execResRd s
  | .plenRd => Sys2Proof.Machine.execPlenRd s
  | .klenRd => Sys2Proof.Machine.execKlenRd s

end Sys2Proof.Machine
end

