-- ==== Sys2Proof/Machine/Step.lean ====
section
/-! DEFINITION. One step of the block: it performs the next command word the host issues (R13, R45). -/

namespace Sys2Proof.Machine

/-- The performance of one command word (R46, R111): a legal word's command, or the answer to an illegal word. -/
def perform (w : Word) (s : State) : Host.Outcome State Fault Refusal :=
  match decode w with
  | .ok i => exec i s
  | .error _ => illegalWord s

/-- One step: the next word on the port is taken and performed. Where the host issues no word the block waits and
nothing changes (R33, R124). DESIGN CHOICE (log entry 2). -/
def step (s : State) : Host.Outcome State Fault Refusal :=
  match takeCommand s with
  | none => .next s
  | some (w, s') => perform w s'

/-- `s` with the row's word as the next one the host issues (log entry 1). -/
def State.withFetchWord (s : State) (nbits w : Nat) : State := presentCommand (tableWord nbits w) s

end Sys2Proof.Machine
end

