-- ==== Sys2Proof/Machine/Assembler.lean ====
section
/-! DEFINITION. The assembler syntax (R50), the pseudo-instructions (R51), how many bytes follow a header (R43), and
the command sequences by which a host sends and receives one packet (R108). DESIGN CHOICE (log entry 14): what R50 leaves open of the
written form. -/

namespace Sys2Proof.Machine

/-- A piece of a line: a run of other characters, a quoted string, or a comma (R50, R51). -/
inductive AsmToken where
  | word (chars : List Char)
  | quoted (codes : List Nat)
  | comma
  deriving DecidableEq, Repr

/-- The run of characters read so far (last first), as a token in front of the others. -/
def flushWord (run : List Char) (rest : List AsmToken) : List AsmToken :=
  if run = [] then rest else .word run.reverse :: rest

/-- The tokens of a line. `quote` says whether the next character stands inside double quotes; a comment starts with
`;` outside them (R50). A string that is not closed gives nothing. -/
def tokens : List Char → (quote : Bool) → (run : List Char) → Option (List AsmToken)
  | [], true, _ => none
  | [], false, run => some (flushWord run [])
  | c :: cs, true, run =>
    if c = '"' then (tokens cs false []).map (.quoted (run.reverse.map Char.toNat) :: ·) else tokens cs true (c :: run)
  | c :: cs, false, run =>
    if c = ';' then some (flushWord run [])
    else if c = '"' then (tokens cs true []).map (flushWord run)
    else if c = ',' then (tokens cs false []).map fun ts => flushWord run (.comma :: ts)
    else if c = ' ' ∨ c = '\t' then (tokens cs false []).map (flushWord run)
    else tokens cs false (c :: run)

/-- The digits of R50's numbers, each at the place of its value; hexadecimal ones are read in either case (log
entry 14). -/
def numeralDigits : List Char := "0123456789abcdef".toList

/-- The numeral of a base, most significant digit first; nothing for no digit, or for a character that is none of the
base's digits (R50). -/
def numeral (base : Nat) (cs : List Char) : Option Nat :=
  if cs.isEmpty then none
  else (cs.mapM fun c => (numeralDigits.take base).idxOf? c.toLower).map (List.foldl (fun n d => base * n + d) 0)

/-- A number as R50 writes it: `0x` and a hexadecimal numeral, or a decimal one. -/
def numberOf (cs : List Char) : Option Nat :=
  if cs.take 2 = ['0', 'x'] then numeral 16 (cs.drop 2) else numeral 10 cs

/-- A token as an operand. -/
def operandOf : AsmToken → Option AsmOperand
  | .word chars => some ((numberOf chars).elim (.word (String.ofList chars)) .num)
  | .quoted codes => some (.text codes)
  | .comma => none

/-- Operands separated by commas. -/
def operandsOf : List AsmToken → Option (List AsmOperand)
  | [] => some []
  | [t] => (operandOf t).map ([·])
  | t :: .comma :: t' :: ts =>
    match operandOf t, operandsOf (t' :: ts) with
    | some o, some os => some (o :: os)
    | _, _ => none
  | _ => none

/-- A line of text as a line of the syntax (R50); nothing for a line without a command or with another form. -/
def readLine (line : String) : Option AsmLine :=
  match tokens line.toList false [] with
  | some (.word chars :: ts) => (operandsOf ts).map fun os => ⟨String.ofList chars, os⟩
  | _ => none

/-- `CRC.CLR`, `CRC.UPD b` for each byte, `CRC.RD`; and the loads (R51). -/
def expand (mnemonic : String) (bytes : List Byte) : Option (List Instr) :=
  if mnemonic = "PAY.LOAD" then some (.payClr :: bytes.map .payPush)
  else if mnemonic = "PKT.LOAD" then some (.pktClr :: bytes.map .pktPush)
  else if mnemonic = "CRC.OF" then some (.crcClr :: bytes.map .crcUpd ++ [.crcRd])
  else none

/-- The profile an operand names (R50). -/
def profileOperand : AsmOperand → Profile
  | .num _ => .p128
  | _ => .p1K

/-- The mode an operand names (R50). -/
def modeOperand : AsmOperand → IntegrityMode
  | .word w => if w = "CRC" then .crc else .sum
  | _ => .sum

/-- The command of a well-formed line (R47, R50). -/
def command (mnemonic : String) (operands : List AsmOperand) : Option Instr :=
  match operands with
  | [] =>
    [("CRC.CLR", Instr.crcClr), ("CRC.RD", .crcRd), ("SUM.CLR", .sumClr), ("SUM.RD", .sumRd), ("PAY.CLR", .payClr),
      ("PKT.CLR", .pktClr), ("RST", .rst), ("ST.RD", .stRd), ("RES.RD", .resRd), ("PLEN.RD", .plenRd),
      ("KLEN.RD", .klenRd)].lookup mnemonic
  | [.num n] =>
    [("CRC.UPD", Instr.crcUpd (BitVec.ofNat 8 n)), ("SUM.UPD", .sumUpd (BitVec.ofNat 8 n)),
      ("PAY.PUSH", .payPush (BitVec.ofNat 8 n)), ("PKT.PUSH", .pktPush (BitVec.ofNat 8 n)),
      ("PKT.RD", .pktRd (BitVec.ofNat 11 n)), ("HDR.CLS", .hdrCls (BitVec.ofNat 8 n))].lookup mnemonic
  | [.num n, m] => if mnemonic = "VAL" then some (.val (BitVec.ofNat 8 n) (modeOperand m)) else none
  | [.num n, p, m] =>
    if mnemonic = "ENC" then some (.enc (BitVec.ofNat 8 n) (profileOperand p) (modeOperand m)) else none
  | _ => none

/-- The commands a line stands for (R50, R51); nothing where the line is not well-formed: an assembler refuses a
value its field cannot hold (R129). -/
def assemble (l : AsmLine) : Option (List Instr) :=
  if l.wellFormed then
    match command l.mnemonic l.operands with
    | some i => some [i]
    | none => expand l.mnemonic ((l.operands.flatMap AsmOperand.loadCodes).map (BitVec.ofNat 8))
  else none

/-- The command words of a line of text (R50, R51). -/
def assembleText (line : String) : Option (List Word) :=
  match readLine line with
  | some l => (assemble l).map (·.map encode)
  | none => none

/-- How many bytes follow a header byte of a class, in the session's mode (R43, R85): nothing where the byte is no
header. -/
def bytesAfterHeader (headerClass : Nat) (mode : IntegrityMode) : Option Nat :=
  match headerClass with
  | 1 => some (2 + SIZE_128 + tlen mode)
  | 2 => some (2 + SIZE_1K + tlen mode)
  | 3 => some 0
  | 4 => some 0
  | _ => none

/-- PKT.RD of the indices `from` to `from + n - 1`, in order. -/
def readOut (start n : Nat) : List Instr := (List.range n).map fun k => .pktRd (BitVec.ofNat 11 (start + k))

/-- The commands that send one packet (R108): load the chunk, encode it, read the packet out. -/
def sendPacket (seq : Byte) (chunk : List Byte) (prof : Profile) (mode : IntegrityMode) : List Instr :=
  .payClr :: chunk.map .payPush ++ .enc seq prof mode :: readOut 0 (packetLength prof mode)

/-- The commands that present one received packet (R108): load the raw bytes, validate them. -/
def receivePacket (raw : List Byte) (expseq : Byte) (mode : IntegrityMode) : List Instr :=
  .pktClr :: raw.map .pktPush ++ [.val expseq mode]

/-- The commands that deliver the payload of an accepted packet (R108): indices 3 to 2+N. -/
def deliverPayload (prof : Profile) : List Instr := readOut 3 (size prof)

end Sys2Proof.Machine
end

