-- ==== Sys2Proof/Safety.lean ====
section
/-! DEFINITION. The invariants the spec states of the block's state (R14 to R20), and what a run is (R124). -/

namespace Sys2Proof.Machine

/-- The values STATUS takes (R14, R88). -/
abbrev StatusLegal (v : Word) : Prop := v ∈ [0x0000, 0x0011, 0x0021, 0x0031, 0x0041, 0x0051]

/-- The values RESULT takes: 0 before the first VAL, and the response values of R83. -/
abbrev ResultLegal (v : Word) : Prop :=
  v ∈ [0x0000, 0x0001, 0x0021, 0x0002, 0x0022, 0x0007, 0x0027, 0x000B, 0x000F, 0x002F, 0x0013, 0x0033, 0x0017, 0x0037]

/-- PAY and PLEN agree: PLEN is at most 1024 and exactly the cells below it hold a value (R16, R18, R20). -/
abbrev PayFilled (s : State) : Prop := s.plen.toNat ≤ PAY_CAP ∧ s.pay.filled s.plen.toNat

/-- PKT and KLEN agree: KLEN is at most 1029 and exactly the cells below it hold a value (R17, R19, R20). -/
abbrev PktFilled (s : State) : Prop := s.klen.toNat ≤ PKT_CAP ∧ s.pkt.filled s.klen.toNat

/-- The invariant of the block: what R14 to R20 say of the state. -/
abbrev State.Inv (s : State) : Prop := PayFilled s ∧ PktFilled s ∧ StatusLegal s.status ∧ ResultLegal s.result

/-- A run (R124): the words the host issues, in order, with the state after the last response and the responses. -/
def runWords : List Word → State → Option (State × List Response)
  | [], s => some (s, [])
  | w :: ws, s =>
    match perform w s with
    | .next t => (runWords ws t).map fun r => (r.1, t.resp.toList ++ r.2)
    | .fault _ => none
    | .refused _ => none

/-- Every response of a run was Ok (R124). -/
def allOk (responses : List Response) : Bool :=
  responses.all fun r => match r with
    | .ok _ => true
    | .fault _ => false

/-- A safe run, in the words of R124: it ends, every response was Ok, and the block is not halted at the end. -/
def safeRun (ws : List Word) (s : State) : Bool :=
  match runWords ws s with
  | some (t, responses) => allOk responses && !halted t
  | none => false

end Sys2Proof.Machine
end

