-- ==== Sys2Proof/Certificates/Slice0/Obligations.lean ====
section
/-! DEFINITION. The statements for the provers. Throughout, `halted s = false` says STATUS.ERR = 0 (R14), a next state
written `{ s with … }` keeps every field it does not name, and `resp := some (.ok v)` is `resp <- Ok(v)` (R6). The
fields `cmds` and `resp` are the model's own representation of the command port (log entries 1 and 3). -/

open Sys2Proof Sys2Proof.Machine

/-! ## The step and the command words -/

/-- A step performs the next word the host issues: a legal word's command, or the answer to an illegal word. That the
words stand in `cmds` is the model's choice (log entry 1). -/
def Obligations.StepPerformsTheNextWord : Prop :=
  ∀ (s : State) (w : Word) (rest : List Word), s.cmds = w :: rest →
    (∀ i, decode w = .ok i → step s = exec i { s with cmds := rest }) ∧
    (∀ e, decode w = .error e → halted s = false →
      step s = .next { s with cmds := rest, status := 0x0011, resp := some (.fault 1) }) ∧
    (∀ e, decode w = .error e → halted s = true →
      step s = .next { s with cmds := rest, resp := some (.fault 6) })

/-- With no word issued the block waits and nothing changes: the model's choice (log entry 2). -/
def Obligations.StepWaitsWithoutAWord : Prop :=
  ∀ s : State, s.cmds = [] → step s = .next s

/-- Every command, at every value of its operands, is decoded from its word: no bit of an operand is dropped. -/
def Obligations.DecodeOfEncodeIsTheCommand : Prop :=
  ∀ i : Instr, decode (encode i) = .ok i

/-- A legal word is the word of the command it decodes to: no bit of a legal word is ignored. -/
def Obligations.EncodeOfDecodeIsTheWord : Prop :=
  ∀ (w : Word) (i : Instr), decode w = .ok i → encode i = w

/-- R47: the opcode map is the decoder. Rows are disjoint, a word decodes to a command of the row it selects, a word
that selects no row is illegal, and the operands are the named fields of `arg`. -/
def Obligations.OpcodeMapIsTheDecoder : Prop :=
  (∀ w : Word, ∀ r ∈ opcodeMap, ∀ r' ∈ opcodeMap, r.selects w = true → r'.selects w = true → r = r') ∧
  (∀ w : Word, ∀ r ∈ opcodeMap, r.selects w = true → ∃ i, decode w = .ok i ∧ mnemonicOf i = r.mnemonic) ∧
  (∀ w : Word, (∀ r ∈ opcodeMap, r.selects w = false) → ∃ e, decode w = .error e) ∧
  (∀ (w : Word) (b : Byte), decode w = .ok (.crcUpd b) → b = w.extractLsb' 0 8) ∧
  (∀ (w : Word) (b : Byte), decode w = .ok (.sumUpd b) → b = w.extractLsb' 0 8) ∧
  (∀ (w : Word) (b : Byte), decode w = .ok (.payPush b) → b = w.extractLsb' 0 8) ∧
  (∀ (w : Word) (b : Byte), decode w = .ok (.pktPush b) → b = w.extractLsb' 0 8) ∧
  (∀ (w : Word) (b : Byte), decode w = .ok (.hdrCls b) → b = w.extractLsb' 0 8) ∧
  (∀ (w : Word) (n : Index), decode w = .ok (.pktRd n) → n = w.extractLsb' 0 11) ∧
  (∀ (w : Word) (seq : Byte) (prof : Profile) (mode : IntegrityMode), decode w = .ok (.enc seq prof mode) →
    seq = w.extractLsb' 0 8 ∧ profBit prof = w.extractLsb' 8 1 ∧ modeBit mode = w.extractLsb' 9 1) ∧
  (∀ (w : Word) (expseq : Byte) (mode : IntegrityMode), decode w = .ok (.val expseq mode) →
    expseq = w.extractLsb' 0 8 ∧ modeBit mode = w.extractLsb' 9 1)

/-- R49: the illegal words are those that select no row, exactly the classes (a) to (g); an illegal word faults with
E_ILLEGAL; 4875 words are legal and 60661 are not. -/
def Obligations.IllegalWordsAreTheSevenClasses : Prop :=
  (∀ w : Word, (∃ e, decode w = .error e) ↔ ∀ r ∈ opcodeMap, r.selects w = false) ∧
  (∀ w : Word, (∃ e, decode w = .error e) ↔
    opcOf w = 0x0 ∨
    opcOf w ∈ [0x1#4, 0x3#4, 0x4#4, 0x6#4, 0x7#4, 0x9#4] ∧ argOf w ≠ 0 ∨
    opcOf w ∈ [0x2#4, 0x5#4, 0x8#4, 0xA#4, 0xE#4] ∧ (argOf w).extractLsb' 8 4 ≠ 0 ∨
    opcOf w = 0xB ∧ (argOf w).extractLsb' 11 1 = 1 ∨
    opcOf w = 0xC ∧ (argOf w).extractLsb' 10 2 ≠ 0 ∨
    opcOf w = 0xD ∧ ((argOf w).extractLsb' 10 2 ≠ 0 ∨ (argOf w).extractLsb' 8 1 = 1) ∨
    opcOf w = 0xF ∧ 0x004 < (argOf w).toNat) ∧
  (∀ (w : Word) (s : State), halted s = false → (∃ e, decode w = .error e) →
    perform w s = .next { s with status := 0x0011, resp := some (.fault 1) }) ∧
  (∃ legal illegal : List Word, (legal ++ illegal).Nodup ∧ legal.length = 4875 ∧ illegal.length = 60661 ∧
    (∀ w, w ∈ legal ↔ ∃ i, decode w = .ok i) ∧ (∀ w, w ∈ illegal ↔ ∃ e, decode w = .error e))

/-- The example words of R50 and of 95_test_vectors.md section 2.10, as decoded and as assembled from their text. -/
def Obligations.ExampleWordsDecodeAndAssemble : Prop :=
  decode 0x1000 = .ok .crcClr ∧ decode 0x2031 = .ok (.crcUpd 0x31) ∧ decode 0xB083 = .ok (.pktRd 131) ∧
  decode 0xC3FF = .ok (.enc 255 .p1K .crc) ∧ decode 0xD202 = .ok (.val 2 .crc) ∧ decode 0xE018 = .ok (.hdrCls 0x18) ∧
  decode 0xF000 = .ok .rst ∧ decode 0xD100 = .error .valReserved ∧ decode 0xF005 = .error .sysUnassigned ∧
  assembleText "CRC.UPD 0x31" = some [0x2031] ∧ assembleText "PKT.RD 131" = some [0xB083] ∧
  assembleText "ENC 1, 128, SUM" = some [0xC001] ∧ assembleText "ENC 1, 128, CRC ; one" = some [0xC201] ∧
  assembleText "ENC 255, 1K, CRC" = some [0xC3FF] ∧ assembleText "VAL 2, CRC" = some [0xD202] ∧
  assembleText "VAL 2, SUM" = some [0xD002] ∧ assembleText "HDR.CLS 0x18" = some [0xE018] ∧
  assembleText "RST" = some [0xF000]

/-- R51: the three pseudo-instructions, their limits, and a quoted string as the list of its ASCII codes in each of
the three. What the model chooses beyond the rule is in `QuotedStringsReadAsWritten`. -/
def Obligations.PseudoInstructionsExpand : Prop :=
  (∀ bytes : List Byte,
    assemble ⟨"PAY.LOAD", bytes.map fun b => .num b.toNat⟩ =
      if bytes.length ≤ 1024 then some (.payClr :: bytes.map .payPush) else none) ∧
  (∀ bytes : List Byte,
    assemble ⟨"PKT.LOAD", bytes.map fun b => .num b.toNat⟩ =
      if bytes.length ≤ 1029 then some (.pktClr :: bytes.map .pktPush) else none) ∧
  (∀ bytes : List Byte,
    assemble ⟨"CRC.OF", bytes.map fun b => .num b.toNat⟩ = some (.crcClr :: bytes.map .crcUpd ++ [.crcRd])) ∧
  (∀ bytes : List Byte, (∀ b ∈ bytes, b.toNat < 128) →
    assemble ⟨"PAY.LOAD", [.text (bytes.map BitVec.toNat)]⟩ =
      if bytes.length ≤ 1024 then some (.payClr :: bytes.map .payPush) else none) ∧
  (∀ bytes : List Byte, (∀ b ∈ bytes, b.toNat < 128) →
    assemble ⟨"PKT.LOAD", [.text (bytes.map BitVec.toNat)]⟩ =
      if bytes.length ≤ 1029 then some (.pktClr :: bytes.map .pktPush) else none) ∧
  (∀ bytes : List Byte, (∀ b ∈ bytes, b.toNat < 128) →
    assemble ⟨"CRC.OF", [.text (bytes.map BitVec.toNat)]⟩ = some (.crcClr :: bytes.map .crcUpd ++ [.crcRd])) ∧
  assembleText "PAY.LOAD \"Hi\"" = some [0x7000, 0x8048, 0x8069] ∧
  assembleText "PKT.LOAD \"Hi\"" = some [0x9000, 0xA048, 0xA069] ∧
  assembleText "CRC.OF \"ABC\"" = some [0x1000, 0x2041, 0x2042, 0x2043, 0x3000]

/-- The model's choices of log entry 14 about quoted strings, no rule of the spec: the operands of a pseudo-instruction
may mix numbers and strings in any order, a string's codes are any bytes, and between quotes every character (`;` and
`,` too) is read by its code. A piece is a number operand (`inl`) or a string operand (`inr`). -/
def Obligations.QuotedStringsReadAsWritten : Prop :=
  (∀ pieces : List (Byte ⊕ List Byte),
    let operands : List AsmOperand := pieces.map (Sum.elim (.num ·.toNat) (.text <| ·.map BitVec.toNat))
    let bytes : List Byte := pieces.flatMap (Sum.elim ([·]) id)
    assemble ⟨"PAY.LOAD", operands⟩ =
      (if bytes.length ≤ 1024 then some (.payClr :: bytes.map .payPush) else none) ∧
    assemble ⟨"PKT.LOAD", operands⟩ =
      (if bytes.length ≤ 1029 then some (.pktClr :: bytes.map .pktPush) else none) ∧
    assemble ⟨"CRC.OF", operands⟩ = some (.crcClr :: bytes.map .crcUpd ++ [.crcRd])) ∧
  (∀ chars : List Char, '"' ∉ chars →
    tokens ('"' :: chars ++ ['"']) false [] = some [.quoted (chars.map Char.toNat)]) ∧
  assembleText "PKT.LOAD \"Hi\", 0x1A" = some [0x9000, 0xA048, 0xA069, 0xA01A]

/-- The last sentence of R129 but one: an assembler refuses a value its field cannot hold rather than truncate it. -/
def Obligations.AssemblerRefusesWideOperands : Prop :=
  (∀ n, 256 ≤ n → ∀ m ∈ ["CRC.UPD", "SUM.UPD", "PAY.PUSH", "PKT.PUSH", "HDR.CLS"], assemble ⟨m, [.num n]⟩ = none) ∧
  (∀ n, 2048 ≤ n → assemble ⟨"PKT.RD", [.num n]⟩ = none) ∧
  (∀ n p m, 256 ≤ n → assemble ⟨"ENC", [.num n, p, m]⟩ = none) ∧
  (∀ n m, 256 ≤ n → assemble ⟨"VAL", [.num n, m]⟩ = none) ∧
  (∀ n, n < 256 → ∃ i, assemble ⟨"ENC", [.num n, .num 128, .word "SUM"]⟩ = some [i] ∧ encode i = BitVec.ofNat 16 (0xC000 + n))

/-! ## The streaming commands -/

/-- R58. -/
def Obligations.CrcClrClearsCrc : Prop :=
  (∀ w, decode w = .ok .crcClr ↔ w = 0x1000) ∧
  ∀ s : State, halted s = false → exec .crcClr s = .next { s with crc := 0x0000, resp := some (.ok 0x0000) }

/-- R59, with its corner case: after CRC.CLR and CRC.UPD of each byte, CRC is `crc16` of the bytes. -/
def Obligations.CrcUpdFeedsOneByte : Prop :=
  (∀ w b, decode w = .ok (.crcUpd b) ↔ w = 0x2000 ||| b.setWidth 16) ∧
  (∀ (s : State) (b : Byte), halted s = false →
    exec (.crcUpd b) s = .next { s with crc := crcStep s.crc b, resp := some (.ok (crcStep s.crc b)) }) ∧
  (∀ (s : State) (xs : List Byte), halted s = false →
    ∃ r rs, runWords (0x1000 :: xs.map fun b => 0x2000 ||| b.setWidth 16) s =
      some ({ s with crc := crc16 xs, resp := some r }, rs)) ∧
  crcStep 0x0000 0x00 = 0x0000 ∧ crcStep 0x0000 0x31 = 0x2672

/-- R60. -/
def Obligations.CrcRdAnswersCrc : Prop :=
  (∀ w, decode w = .ok .crcRd ↔ w = 0x3000) ∧
  ∀ s : State, halted s = false → exec .crcRd s = .next { s with resp := some (.ok s.crc) }

/-- R61. -/
def Obligations.SumClrClearsSum : Prop :=
  (∀ w, decode w = .ok .sumClr ↔ w = 0x4000) ∧
  ∀ s : State, halted s = false → exec .sumClr s = .next { s with sum := 0x00, resp := some (.ok 0x0000) }

/-- R62, with its corner case: after SUM.CLR and SUM.UPD of each byte, SUM is `sum8` of the bytes. -/
def Obligations.SumUpdAddsOneByte : Prop :=
  (∀ w b, decode w = .ok (.sumUpd b) ↔ w = 0x5000 ||| b.setWidth 16) ∧
  (∀ (s : State) (b : Byte), halted s = false →
    ∃ v : Byte, v.toNat = (s.sum.toNat + b.toNat) % 256 ∧
      exec (.sumUpd b) s = .next { s with sum := v, resp := some (.ok (v.setWidth 16)) }) ∧
  (∀ (s : State) (xs : List Byte), halted s = false →
    ∃ r rs, runWords (0x4000 :: xs.map fun b => 0x5000 ||| b.setWidth 16) s =
      some ({ s with sum := sum8 xs, resp := some r }, rs))

/-- R63. -/
def Obligations.SumRdAnswersSum : Prop :=
  (∀ w, decode w = .ok .sumRd ↔ w = 0x6000) ∧
  ∀ s : State, halted s = false →
    ∃ v : Word, v.extractLsb' 0 8 = s.sum ∧ v.extractLsb' 8 8 = 0 ∧ exec .sumRd s = .next { s with resp := some (.ok v) }

/-! ## The buffer commands -/

/-- R65: after it no cell of PAY holds a value. -/
def Obligations.PayClrEmptiesPay : Prop :=
  (∀ w, decode w = .ok .payClr ↔ w = 0x7000) ∧
  ∀ s : State, halted s = false →
    ∃ m : Memory, exec .payClr s = .next { s with plen := 0, pay := m, resp := some (.ok 0x0000) } ∧ ∀ a, m.read a = none

/-- R66: below 1024 the byte goes to PAY[PLEN], every other cell is as before, and the response is the new length; at
1024 E_PAYOVF, with nothing written. -/
def Obligations.PayPushAppendsOrFaults : Prop :=
  (∀ w b, decode w = .ok (.payPush b) ↔ w = 0x8000 ||| b.setWidth 16) ∧
  (∀ (s : State) (b : Byte), halted s = false → s.plen.toNat = 1024 →
    exec (.payPush b) s = .next { s with status := 0x0021, resp := some (.fault 2) }) ∧
  (∀ (s : State) (b : Byte), halted s = false → s.plen.toNat < 1024 →
    ∃ (m : Memory) (n : BitVec 11), n.toNat = s.plen.toNat + 1 ∧
      exec (.payPush b) s = .next { s with pay := m, plen := n, resp := some (.ok (n.setWidth 16)) } ∧
      m.read s.plen.toNat = some b ∧ ∀ a, a ≠ s.plen.toNat → m.read a = s.pay.read a)

/-- R67: after it no cell of PKT holds a value. -/
def Obligations.PktClrEmptiesPkt : Prop :=
  (∀ w, decode w = .ok .pktClr ↔ w = 0x9000) ∧
  ∀ s : State, halted s = false →
    ∃ m : Memory, exec .pktClr s = .next { s with klen := 0, pkt := m, resp := some (.ok 0x0000) } ∧ ∀ a, m.read a = none

/-- R68: below 1029 the byte goes to PKT[KLEN], every other cell is as before, and the response is the new length; at
1029 E_PKTOVF, with nothing written. -/
def Obligations.PktPushAppendsOrFaults : Prop :=
  (∀ w b, decode w = .ok (.pktPush b) ↔ w = 0xA000 ||| b.setWidth 16) ∧
  (∀ (s : State) (b : Byte), halted s = false → s.klen.toNat = 1029 →
    exec (.pktPush b) s = .next { s with status := 0x0031, resp := some (.fault 3) }) ∧
  (∀ (s : State) (b : Byte), halted s = false → s.klen.toNat < 1029 →
    ∃ (m : Memory) (n : BitVec 11), n.toNat = s.klen.toNat + 1 ∧
      exec (.pktPush b) s = .next { s with pkt := m, klen := n, resp := some (.ok (n.setWidth 16)) } ∧
      m.read s.klen.toNat = some b ∧ ∀ a, a ≠ s.klen.toNat → m.read a = s.pkt.read a)

/-- R69: a valid cell is read without change of state; any other index faults with E_INDEX. `PktFilled` is part of the
invariant `StepKeepsInvariantAndNeverStops` states. -/
def Obligations.PktRdReadsOrFaults : Prop :=
  (∀ w n, decode w = .ok (.pktRd n) ↔ w = 0xB000 ||| n.setWidth 16) ∧
  (∀ (s : State) (n : Index), halted s = false → s.klen.toNat ≤ n.toNat →
    exec (.pktRd n) s = .next { s with status := 0x0051, resp := some (.fault 5) }) ∧
  (∀ (s : State) (n : Index), halted s = false → PktFilled s → n.toNat < s.klen.toNat →
    ∃ b : Byte, s.pkt.read n.toNat = some b ∧ exec (.pktRd n) s = .next { s with resp := some (.ok (b.setWidth 16)) })

/-! ## The encoder -/

/-- R72: a chunk longer than the profile faults with E_PAYLEN and leaves PKT and KLEN; otherwise PKT holds exactly the
packet of PAY's valid bytes, KLEN and the response are its length, and nothing else changes. `PayFilled` is part of the
invariant `StepKeepsInvariantAndNeverStops` states. -/
def Obligations.EncStoresThePacketOrFaults : Prop :=
  (∀ w seq prof mode, decode w = .ok (.enc seq prof mode) ↔
    w = 0xC000 ||| ((modeBit mode).setWidth 16 <<< 9) ||| ((profBit prof).setWidth 16 <<< 8) ||| seq.setWidth 16) ∧
  (∀ (s : State) seq prof mode, halted s = false → size prof < s.plen.toNat →
    exec (.enc seq prof mode) s = .next { s with status := 0x0041, resp := some (.fault 4) }) ∧
  (∀ (s : State) seq prof mode, halted s = false → PayFilled s → s.plen.toNat ≤ size prof →
    ∃ (chunk : List Byte) (m : Memory) (L : Nat),
      chunk.length = s.plen.toNat ∧ (∀ a, a < s.plen.toNat → s.pay.read a = chunk[a]?) ∧
      L = 3 + size prof + tlen mode ∧ (∀ a, m.read a = (encodePacket crc16 seq chunk prof mode)[a]?) ∧
      (encodePacket crc16 seq chunk prof mode).length = L ∧
      exec (.enc seq prof mode) s =
        .next { s with pkt := m, klen := BitVec.ofNat 11 L, resp := some (.ok (BitVec.ofNat 16 L)) })

/-- R37: every byte of an encoded data packet, by offset; R28's byte order in the trailer. -/
def Obligations.PacketLayout : Prop :=
  ∀ (crcFn : List Byte → Word) (seq : Byte) (chunk : List Byte) (prof : Profile) (mode : IntegrityMode),
    chunk.length ≤ size prof →
    let p := encodePacket crcFn seq chunk prof mode
    let payload := (p.drop 3).take (size prof)
    p[0]? = some (match prof with | .p128 => (0x01 : Byte) | .p1K => 0x02) ∧
    p[1]? = some seq ∧
    p[2]? = some (255 - seq) ∧
    payload.length = (match prof with | .p128 => 128 | .p1K => 1024) ∧
    (∀ k, k < chunk.length → p[3 + k]? = chunk[k]?) ∧
    (∀ k, chunk.length ≤ k → k < size prof → p[3 + k]? = some 0x1A) ∧
    (mode = .sum → p[3 + size prof]? = some (sum8 payload) ∧ p.length = 3 + size prof + 1) ∧
    (mode = .crc → p[3 + size prof]? = some ((crcFn payload).extractLsb' 8 8) ∧
      p[3 + size prof + 1]? = some ((crcFn payload).extractLsb' 0 8) ∧ p.length = 3 + size prof + 2)

/-- R71, the spec's own derivations: the length whatever the chunk, `seq` in bytes 1 and 2 only, and the chunk's length
not recoverable. -/
def Obligations.EncodeFacts : Prop :=
  ∀ (crcFn : List Byte → Word) (seq : Byte) (chunk : List Byte) (prof : Profile) (mode : IntegrityMode),
    chunk.length ≤ size prof →
    (encodePacket crcFn seq chunk prof mode).length = 3 + size prof + tlen mode ∧
    (∀ (seq' : Byte) (a : Nat), a ≠ 1 → a ≠ 2 →
      (encodePacket crcFn seq' chunk prof mode)[a]? = (encodePacket crcFn seq chunk prof mode)[a]?) ∧
    (chunk.length + 1 ≤ size prof →
      encodePacket crcFn seq (chunk ++ [0x1A]) prof mode = encodePacket crcFn seq chunk prof mode)

/-- R28: after ENC in CRC mode the two cells from 3+N read, big-endian, as the CRC of the payload cells. -/
def Obligations.EncTrailerReadsBigEndian : Prop :=
  ∀ (s t : State) (seq : Byte) (prof : Profile), halted s = false → PayFilled s → s.plen.toNat ≤ size prof →
    exec (.enc seq prof .crc) s = .next t →
    ∃ payload, t.pkt.readRange 3 (size prof) = some payload ∧
      t.pkt.readWord (3 + size prof) = some (crc16 payload) ∧
      t.pkt.read (3 + size prof) = some ((crc16 payload).extractLsb' 8 8)

/-! ## The validator -/

/-- R74 with the order of R80: the verdict, reason and profile bit of every raw packet, the first failing check
deciding the reason. -/
def Obligations.ValidateChecksInOrder : Prop :=
  ∀ (crcFn : List Byte → Word) (raw : List Byte) (expseq : Byte) (mode : IntegrityMode),
    let rprof : BitVec 1 := if raw[0]? = some 0x01 then 0 else 1
    let N := if raw[0]? = some 0x01 then 128 else 1024
    let payload := (raw.drop 3).take N
    validate crcFn raw expseq mode =
      if raw.length = 0 then ⟨.rejected, .length, 0⟩
      else if raw[0]? ≠ some 0x01 ∧ raw[0]? ≠ some 0x02 then ⟨.rejected, .header, 0⟩
      else if raw.length ≠ 3 + N + tlen mode then ⟨.rejected, .length, rprof⟩
      else if raw[2]? ≠ raw[1]?.map (255 - ·) then ⟨.rejected, .complement, rprof⟩
      else if mode = .sum ∧ raw[3 + N]? ≠ some (sum8 payload) then ⟨.rejected, .trailer, rprof⟩
      else if mode = .crc ∧ ¬ (raw[3 + N]? = some ((crcFn payload).extractLsb' 8 8) ∧
          raw[3 + N + 1]? = some ((crcFn payload).extractLsb' 0 8)) then ⟨.rejected, .trailer, rprof⟩
      else if raw[1]? = some expseq then ⟨.accepted, .noReason, rprof⟩
      else if raw[1]? = some (expseq - 1) then ⟨.duplicateOfPrevious, .noReason, rprof⟩
      else ⟨.rejected, .sequence, rprof⟩

/-- The verdict, whatever the order of the checks: Accepted are exactly the packets the encoder makes of a full payload
with the expected number, DuplicateOfPrevious exactly those with the number before; for every CRC function. -/
def Obligations.ValidatorAcceptsExactlyEncodedPackets : Prop :=
  ∀ (crcFn : List Byte → Word) (raw : List Byte) (expseq : Byte) (mode : IntegrityMode),
    ((validate crcFn raw expseq mode).verdict = .accepted ↔
      ∃ prof payload, payload.length = size prof ∧ raw = encodePacket crcFn expseq payload prof mode) ∧
    ((validate crcFn raw expseq mode).verdict = .duplicateOfPrevious ↔
      ∃ prof payload, payload.length = size prof ∧ raw = encodePacket crcFn (expseq - 1) payload prof mode)

/-- R82, the spec's own derivation: the round trip, for every CRC function. -/
def Obligations.EncodeValidateRoundTrip : Prop :=
  ∀ (crcFn : List Byte → Word) (seq : Byte) (chunk : List Byte) (prof : Profile) (mode : IntegrityMode),
    chunk.length ≤ size prof →
    let p := encodePacket crcFn seq chunk prof mode
    validate crcFn p seq mode = ⟨.accepted, .noReason, profBit prof⟩ ∧
    validate crcFn p (seq + 1) mode = ⟨.duplicateOfPrevious, .noReason, profBit prof⟩ ∧
    (∀ e, e ≠ seq → e ≠ seq + 1 → validate crcFn p e mode = ⟨.rejected, .sequence, profBit prof⟩) ∧
    (∀ e m, m ≠ mode → validate crcFn p e m = ⟨.rejected, .length, profBit prof⟩) ∧
    (p.drop 3).take (size prof) = chunk ++ List.replicate (size prof - chunk.length) 0x1A

/-- The last part of R82: any single bit of any single payload byte flipped gives Rejected, TRAILER in both modes. -/
def Obligations.FlippedPayloadBitIsRejected : Prop :=
  ∀ (seq e : Byte) (chunk : List Byte) (prof : Profile) (mode : IntegrityMode) (j k : Nat),
    chunk.length ≤ size prof → j < size prof → k < 8 →
    validate crc16 ((encodePacket crc16 seq chunk prof mode).modify (3 + j) (· ^^^ (1#8 <<< k))) e mode =
      ⟨.rejected, .trailer, profBit prof⟩

/-- R83: VAL writes RESULT with the validation of PKT's valid bytes and answers it; nothing else changes, whatever the
verdict. `PktFilled` is part of the invariant `StepKeepsInvariantAndNeverStops` states. -/
def Obligations.ValWritesTheVerdict : Prop :=
  (∀ w expseq mode, decode w = .ok (.val expseq mode) ↔
    w = 0xD000 ||| ((modeBit mode).setWidth 16 <<< 9) ||| expseq.setWidth 16) ∧
  (∀ (s : State) expseq mode, halted s = false → PktFilled s →
    ∃ (raw : List Byte) (r : Word),
      raw.length = s.klen.toNat ∧ (∀ a, a < s.klen.toNat → s.pkt.read a = raw[a]?) ∧
      r.extractLsb' 0 2 = (match (validate crc16 raw expseq mode).verdict with
        | .accepted => 1 | .duplicateOfPrevious => 2 | .rejected => 3) ∧
      r.extractLsb' 2 3 = (match (validate crc16 raw expseq mode).reason with
        | .noReason => 0 | .length => 1 | .header => 2 | .complement => 3 | .trailer => 4 | .sequence => 5) ∧
      r.extractLsb' 5 1 = (validate crc16 raw expseq mode).rprof ∧
      r.extractLsb' 6 10 = 0 ∧
      r ∈ [0x0001, 0x0021, 0x0002, 0x0022, 0x0007, 0x0027, 0x000B, 0x000F, 0x002F, 0x0013, 0x0033, 0x0017, 0x0037] ∧
      exec (.val expseq mode) s = .next { s with result := r, resp := some (.ok r) })

/-- ENC and then VAL, on the machine: the packet of any chunk is ACCEPTED under its own number, DUPLICATE under the
next, and PKT, PAY and STATUS stay for the read-out. -/
def Obligations.EncThenValAccepts : Prop :=
  ∀ (s : State) (seq : Byte) (prof : Profile) (mode : IntegrityMode),
    halted s = false → PayFilled s → s.plen.toNat ≤ size prof →
    ∃ t, exec (.enc seq prof mode) s = .next t ∧
      exec (.val seq mode) t = .next { t with
        result := (match prof with | .p128 => 0x0001 | .p1K => 0x0021),
        resp := some (.ok (match prof with | .p128 => 0x0001 | .p1K => 0x0021)) } ∧
      exec (.val (seq + 1) mode) t = .next { t with
        result := (match prof with | .p128 => 0x0002 | .p1K => 0x0022),
        resp := some (.ok (match prof with | .p128 => 0x0002 | .p1K => 0x0022)) }

/-- R85 with the classes of R84. -/
def Obligations.HdrClsAnswersTheClass : Prop :=
  (∀ w b, decode w = .ok (.hdrCls b) ↔ w = 0xE000 ||| b.setWidth 16) ∧
  ∀ (s : State) (b : Byte), halted s = false →
    exec (.hdrCls b) s = .next { s with resp := some (.ok
      (if b = 0x01 then 1 else if b = 0x02 then 2 else if b = 0x04 then 3 else if b = 0x18 then 4 else 0)) }

/-- The count of R43: the bytes that follow the header of an encoded packet are those the header's class gives. -/
def Obligations.HeaderTellsThePacketLength : Prop :=
  ∀ (crcFn : List Byte → Word) (seq : Byte) (chunk : List Byte) (prof : Profile) (mode : IntegrityMode),
    chunk.length ≤ size prof →
    ∃ h rest n, encodePacket crcFn seq chunk prof mode = h :: rest ∧
      bytesAfterHeader (classify h) mode = some n ∧ rest.length = n

/-! ## The integrity functions -/

/-- R52: the sum mod 256, which is also the fold that reduces after every addition. -/
def Obligations.SumIsReducedAtTheEndOrEachTime : Prop :=
  sum8 [] = 0 ∧
  (∀ xs : List Byte, (sum8 xs).toNat = (xs.map BitVec.toNat).sum % 256) ∧
  (∀ xs : List Byte, sum8 xs = xs.foldl (fun s b => s + b) 0)

/-- R53, the spec's own derivations (2), (3) and (6): order, concatenation, padding. -/
def Obligations.SumLaws : Prop :=
  (∀ xs ys : List Byte, xs.Perm ys → sum8 xs = sum8 ys) ∧
  (∀ xs ys : List Byte, sum8 (xs ++ ys) = sum8 xs + sum8 ys) ∧
  (∀ (chunk : List Byte) (k : Nat),
    (sum8 (chunk ++ List.replicate k 0x1A)).toNat = ((sum8 chunk).toNat + 26 * k) % 256)

/-- R53 (4), the spec's own derivation: a single bit flip in one byte changes the sum. -/
def Obligations.SumDetectsABitFlip : Prop :=
  ∀ (xs : List Byte) (j k : Nat), j < xs.length → k < 8 → sum8 (xs.modify j (· ^^^ (1#8 <<< k))) ≠ sum8 xs

/-- The worked single steps of R55 and the worked values of R56 for short lists (the CRC is the spec's from general
knowledge, log entry 7). -/
def Obligations.CrcWorkedValues : Prop :=
  crcStep 0x0000 0x00 = 0x0000 ∧ crcStep 0x0000 0x01 = 0x1021 ∧ crcStep 0x0000 0x80 = 0x9188 ∧
  crcStep 0x0000 0xFF = 0x1EF0 ∧ crcStep 0xFFFF 0x00 = 0xE1F0 ∧ crcStep 0x31C3 0x31 = 0xC300 ∧
  crc16 [] = 0x0000 ∧ crc16 [0x41] = 0x58E5 ∧ crc16 [0x41, 0x42, 0x43] = 0x3994 ∧
  crc16 [0x31, 0x32, 0x33, 0x34, 0x35, 0x36, 0x37, 0x38, 0x39] = 0x31C3

/-- R57 (1) and (2), the spec's own derivations: streaming, and leading zeros are invisible. -/
def Obligations.CrcStreamsAndIgnoresLeadingZeros : Prop :=
  (∀ xs ys : List Byte, crc16 (xs ++ ys) = ys.foldl crcStep (crc16 xs)) ∧
  (∀ (k : Nat) (xs : List Byte), crc16 (List.replicate k 0x00 ++ xs) = crc16 xs)

/-- R57 (3), the spec's own derivation: linearity over XOR of lists of equal length. -/
def Obligations.CrcIsLinear : Prop :=
  ∀ xs ys : List Byte, xs.length = ys.length →
    crc16 (List.zipWith (· ^^^ ·) xs ys) = crc16 xs ^^^ crc16 ys

/-- R57 (4), the spec's own derivation: appending the CRC, high byte first, gives zero. -/
def Obligations.CrcResidueIsZero : Prop :=
  ∀ xs : List Byte, crc16 (xs ++ [(crc16 xs).extractLsb' 8 8, (crc16 xs).extractLsb' 0 8]) = 0x0000

/-- R57 (5), the spec's own derivation: a single bit flip anywhere changes the CRC. -/
def Obligations.CrcDetectsABitFlip : Prop :=
  ∀ (xs : List Byte) (j k : Nat), j < xs.length → k < 8 → crc16 (xs.modify j (· ^^^ (1#8 <<< k))) ≠ crc16 xs

/-! ## The system commands -/

/-- R87: RST puts every part of the block's state in the reset state and leaves the halt, in every state, halted or
not. -/
def Obligations.RstResetsInEveryState : Prop :=
  (∀ w, decode w = .ok .rst ↔ w = 0xF000) ∧
  ∀ s : State, ∃ t, exec .rst s = .next t ∧ t.resp = some (.ok 0x0000) ∧
    t.crc = 0x0000 ∧ t.sum = 0x00 ∧ t.plen = 0 ∧ t.klen = 0 ∧ t.result = 0x0000 ∧ t.status = 0x0000 ∧
    halted t = false ∧ (∀ a, t.pay.read a = none) ∧ (∀ a, t.pkt.read a = none) ∧
    t.crc = State.reset.crc ∧ t.sum = State.reset.sum ∧ t.plen = State.reset.plen ∧ t.klen = State.reset.klen ∧
    t.result = State.reset.result ∧ t.status = State.reset.status ∧ t.pay = State.reset.pay ∧ t.pkt = State.reset.pkt

/-- R88: STATUS is answered in every state, halted or not, its reserved bits as 0; on the values STATUS takes, the
answer is STATUS itself. -/
def Obligations.StRdAnswersStatus : Prop :=
  (∀ w, decode w = .ok .stRd ↔ w = 0xF001) ∧
  (∀ s : State, ∃ v : Word, exec .stRd s = .next { s with resp := some (.ok v) } ∧
    v.extractLsb' 0 1 = s.status.extractLsb' 0 1 ∧ v.extractLsb' 4 4 = s.status.extractLsb' 4 4 ∧
    v.extractLsb' 1 3 = 0 ∧ v.extractLsb' 8 8 = 0 ∧ (StatusLegal s.status → v = s.status))

/-- R89: in every running state RESULT is answered (as it stands, on the values RESULT takes) and nothing else changes.
Over whole runs: 0 before the first VAL after reset, then the response of the last VAL that ended Ok, whatever words
follow it that are neither VAL nor RST; no command but VAL and RST writes RESULT. -/
def Obligations.ResRdAnswersResult : Prop :=
  (∀ w, decode w = .ok .resRd ↔ w = 0xF002) ∧
  (∀ s : State, halted s = false → ∃ v : Word, exec .resRd s = .next { s with resp := some (.ok v) } ∧
    (ResultLegal s.result → v = s.result)) ∧
  (∀ (i : Instr) (s t : State), (∀ e m, i ≠ .val e m) → i ≠ .rst → exec i s = .next t → t.result = s.result) ∧
  (∀ (s₀ s t : State) (ws : List Word) (rs : List Response), s = State.reset ∨ exec .rst s₀ = .next s →
    runWords ws s = some (t, rs) → (∀ w ∈ ws, ∀ e m, decode w ≠ .ok (.val e m)) → halted t = false →
    exec .resRd t = .next { t with resp := some (.ok 0x0000) }) ∧
  (∀ (s t u : State) (e : Byte) (m : IntegrityMode) (r : Word) (ws : List Word) (rs : List Response),
    exec (.val e m) s = .next t → t.resp = some (.ok r) → runWords ws t = some (u, rs) →
    (∀ w ∈ ws, w ≠ 0xF000 ∧ ∀ e' m', decode w ≠ .ok (.val e' m')) → halted u = false →
    exec .resRd u = .next { u with resp := some (.ok r) })

/-- 10_state.md section 4, "always read 0": in every state, also one whose stored word has a reserved bit set, ST.RD and
RES.RD answer the fields with 0 in the reserved bits. For the states no run reaches this is the model's reading of that
section (log entry 6). -/
def Obligations.ReservedBitsReadZero : Prop :=
  (∀ s : State, ∃ v : Word, exec .stRd s = .next { s with resp := some (.ok v) } ∧
    v.extractLsb' 0 1 = s.status.extractLsb' 0 1 ∧ v.extractLsb' 1 3 = 0 ∧
    v.extractLsb' 4 4 = s.status.extractLsb' 4 4 ∧ v.extractLsb' 8 8 = 0) ∧
  (∀ s : State, halted s = false → ∃ v : Word, exec .resRd s = .next { s with resp := some (.ok v) } ∧
    v.extractLsb' 0 6 = s.result.extractLsb' 0 6 ∧ v.extractLsb' 6 10 = 0)

/-- R90. -/
def Obligations.PlenRdAnswersPlen : Prop :=
  (∀ w, decode w = .ok .plenRd ↔ w = 0xF003) ∧
  ∀ s : State, halted s = false →
    ∃ v : Word, v.toNat = s.plen.toNat ∧ exec .plenRd s = .next { s with resp := some (.ok v) }

/-- R91. -/
def Obligations.KlenRdAnswersKlen : Prop :=
  (∀ w, decode w = .ok .klenRd ↔ w = 0xF004) ∧
  ∀ s : State, halted s = false →
    ∃ v : Word, v.toNat = s.klen.toNat ∧ exec .klenRd s = .next { s with resp := some (.ok v) }

/-! ## Faults -/

/-- R111: on every word, halted, illegal, the command's own check, performed Ok, in this order. -/
def Obligations.ChecksAreMadeInOrder : Prop :=
  ∀ (s : State) (w : Word), s.Inv →
    (halted s = true → w ≠ 0xF000 → w ≠ 0xF001 → perform w s = .next { s with resp := some (.fault 6) }) ∧
    (halted s = false ∨ w = 0xF000 ∨ w = 0xF001 →
      ((∀ r ∈ opcodeMap, r.selects w = false) →
        perform w s = .next { s with status := 0x0011, resp := some (.fault 1) }) ∧
      (∀ b, decode w = .ok (.payPush b) → s.plen.toNat = 1024 →
        perform w s = .next { s with status := 0x0021, resp := some (.fault 2) }) ∧
      (∀ b, decode w = .ok (.pktPush b) → s.klen.toNat = 1029 →
        perform w s = .next { s with status := 0x0031, resp := some (.fault 3) }) ∧
      (∀ seq prof mode, decode w = .ok (.enc seq prof mode) → size prof < s.plen.toNat →
        perform w s = .next { s with status := 0x0041, resp := some (.fault 4) }) ∧
      (∀ n, decode w = .ok (.pktRd n) → s.klen.toNat ≤ n.toNat →
        perform w s = .next { s with status := 0x0051, resp := some (.fault 5) }) ∧
      (∀ i, decode w = .ok i →
        ¬ ((∃ b, i = .payPush b) ∧ s.plen.toNat = 1024) → ¬ ((∃ b, i = .pktPush b) ∧ s.klen.toNat = 1029) →
        ¬ (∃ seq prof mode, i = .enc seq prof mode ∧ size prof < s.plen.toNat) →
        ¬ (∃ n, i = .pktRd n ∧ s.klen.toNat ≤ n.toNat) →
        ∃ t v, perform w s = .next t ∧ t.resp = some (.ok v)))

/-- R112: a fault of code 1 to 5 sets STATUS.ERR and STATUS.ECODE and keeps all other state; only a running block takes
one, and it is then halted. -/
def Obligations.FaultEntryKeepsAllButStatus : Prop :=
  ∀ (s t : State) (w : Word) (c : BitVec 4), perform w s = .next t → t.resp = some (.fault c) → c ≠ 6 →
    halted s = false ∧ 1 ≤ c.toNat ∧ c.toNat ≤ 5 ∧
    t = { s with status := 0#8 ++ c ++ 0#3 ++ 1#1, resp := some (.fault c) } ∧ halted t = true

/-- R113: while halted RST and ST.RD are performed and every other word, legal or not, is refused without any change of
the state. -/
def Obligations.HaltedBlockPerformsOnlyRstAndStRd : Prop :=
  ∀ s : State, halted s = true →
    (∃ t, perform 0xF000 s = .next t ∧ t.resp = some (.ok 0x0000) ∧ t.status = 0x0000 ∧ halted t = false) ∧
    (∃ v, perform 0xF001 s = .next { s with resp := some (.ok v) }) ∧
    (∀ w : Word, w ≠ 0xF000 → w ≠ 0xF001 → perform w s = .next { s with resp := some (.fault 6) })

/-- Whatever is done with a halted block, the recorded fault stays until RST (10_state.md section 4: "Sticky: once 1 it
stays 1 until RST or reset"). -/
def Obligations.FaultIsStickyUntilRst : Prop :=
  ∀ s t : State, halted s = true → step s = .next t →
    t.status = s.status ∨ ∃ rest, s.cmds = 0xF000 :: rest ∧ t.status = 0x0000 ∧ halted t = false

/-! ## The whole machine -/

/-- R23: the reset state, after power-on and after RST. -/
def Obligations.ResetState : Prop :=
  ∀ t : State, (t = State.reset ∨ ∃ s, exec .rst s = .next t) →
    t.crc = 0x0000 ∧ t.sum = 0x00 ∧ t.plen = 0 ∧ t.klen = 0 ∧ t.result = 0x0000 ∧ t.status = 0x0000 ∧
    halted t = false ∧ (∀ a, t.pay.read a = none) ∧ (∀ a, t.pkt.read a = none)

/-- The reset state has the invariant. -/
def Obligations.ResetHasTheInvariant : Prop := State.reset.Inv

/-- The invariants R14 to R20 state of the block hold after every step from every state that has them, and from such a
state no step stops. -/
def Obligations.StepKeepsInvariantAndNeverStops : Prop :=
  ∀ s : State, s.Inv → ∃ t, step s = .next t ∧ t.Inv

/-- R46: every word, in every state of the block, has a next state and one response, Ok with 16 bits or Fault with a
code 1 to 6, and a command that returns nothing answers 0. -/
def Obligations.EveryWordHasOneResponse : Prop :=
  ∀ (s : State) (w : Word), s.Inv →
    ∃ t, perform w s = .next t ∧
      ((∃ v, t.resp = some (.ok v) ∧ (w ∈ [0x1000#16, 0x4000#16, 0x7000#16, 0x9000#16, 0xF000#16] → v = 0x0000)) ∨
        ∃ c, t.resp = some (.fault c) ∧ 1 ≤ c.toNat ∧ c.toNat ≤ 6 ∧
          t.crc = s.crc ∧ t.sum = s.sum ∧ t.plen = s.plen ∧ t.klen = s.klen ∧ t.result = s.result ∧
          t.pay = s.pay ∧ t.pkt = s.pkt)

/-- The canonical form of the two memories is kept by every step, whatever else the state holds. -/
def Obligations.StepKeepsMemoryForm : Prop :=
  ∀ s t : State, s.pay.wf 1024 = true → s.pkt.wf 1029 = true → step s = .next t →
    t.pay.wf 1024 = true ∧ t.pkt.wf 1029 = true

/-- Which commands write each part of the state, in every state (10_state.md sections 2, 4 and 5; 70_reset_and_hazards.md
section 2): "nothing but ENC, PKT.PUSH, PKT.CLR and RST changes PKT", and so for each register. The last clause, that
every command, RST included, leaves the host's pending words `cmds`, is no rule of the spec: it is the model's choice of
log entries 1 and 3. -/
def Obligations.OnlyNamedCommandsWrite : Prop :=
  ∀ (i : Instr) (s t : State), exec i s = .next t →
    (t.crc ≠ s.crc → i = .crcClr ∨ (∃ b, i = .crcUpd b) ∨ i = .rst) ∧
    (t.sum ≠ s.sum → i = .sumClr ∨ (∃ b, i = .sumUpd b) ∨ i = .rst) ∧
    (t.plen ≠ s.plen → i = .payClr ∨ (∃ b, i = .payPush b) ∨ i = .rst) ∧
    (t.pay ≠ s.pay → i = .payClr ∨ (∃ b, i = .payPush b) ∨ i = .rst) ∧
    (t.klen ≠ s.klen → i = .pktClr ∨ (∃ b, i = .pktPush b) ∨ (∃ q p m, i = .enc q p m) ∨ i = .rst) ∧
    (t.pkt ≠ s.pkt → i = .pktClr ∨ (∃ b, i = .pktPush b) ∨ (∃ q p m, i = .enc q p m) ∨ i = .rst) ∧
    (t.result ≠ s.result → (∃ e m, i = .val e m) ∨ i = .rst) ∧
    (t.status ≠ s.status → i = .rst ∨ ∃ c, t.resp = some (.fault c)) ∧
    t.cmds = s.cmds

/-- Reads have no side effect (20_memory.md section 2): a read that is answered Ok changes no state of the block, and
repeated it gives the same answer. -/
def Obligations.ReadsHaveNoSideEffect : Prop :=
  ∀ (i : Instr) (s t : State) (v : Word),
    i ∈ [.crcRd, .sumRd, .stRd, .resRd, .plenRd, .klenRd] ∨ (∃ n, i = .pktRd n) ∨ (∃ b, i = .hdrCls b) →
    exec i s = .next t → t.resp = some (.ok v) →
    t = { s with resp := some (.ok v) } ∧ exec i t = .next t

/-- The encoder, the validator and the buffers neither use nor disturb the streaming registers CRC and SUM
(45_host_session.md section 5, 10_state.md section 2). -/
def Obligations.PacketCommandsIgnoreStreamingRegisters : Prop :=
  ∀ (i : Instr) (s t : State) (c : BitVec 16) (x : BitVec 8),
    (∃ q p m, i = .enc q p m) ∨ (∃ e m, i = .val e m) ∨ (∃ b, i = .payPush b) ∨ (∃ b, i = .pktPush b) ∨
      (∃ n, i = .pktRd n) ∨ i = .payClr ∨ i = .pktClr →
    exec i s = .next t →
    exec i { s with crc := c, sum := x } = .next { t with crc := c, sum := x } ∧ t.crc = s.crc ∧ t.sum = s.sum
end

