-- ==== Sys2Proof/Laws/Memory.lean ====
section
/-! SUPPORT. The laws of the byte memories: read after write, the canonical form, and what a filled memory holds. -/

namespace Sys2Proof.Machine

@[simp] theorem Memory.read_nil (a : Nat) : Memory.read [] a = none := rfl

theorem Memory.read_write_same (m : Memory) (a : Nat) (v : Byte) : (m.write a v).read a = some v := by
  induction m with
  | nil => simp [Memory.write, Memory.read]
  | cons c m ih =>
    obtain ⟨k, b⟩ := c
    simp only [Memory.write]
    split
    · simp [Memory.read]
    · split
      · simp [Memory.read]
      · simp [Memory.read, ih]; omega

theorem Memory.read_write_other (m : Memory) {a x : Nat} (v : Byte) (h : x ≠ a) :
    (m.write a v).read x = m.read x := by
  induction m with
  | nil => simp [Memory.write, Memory.read, h.symm]
  | cons c m ih =>
    obtain ⟨k, b⟩ := c
    simp only [Memory.write]
    split
    · simp [Memory.read, h.symm]
    · split
      · rename_i hk; subst hk; simp [Memory.read, h.symm]
      · simp [Memory.read, ih]

theorem Memory.readWord_writeWord (m : Memory) (a : Nat) (v : Word) : (m.writeWord a v).readWord a = some v := by
  have hw : beWord (v.extractLsb' 8 8) (v.extractLsb' 0 8) = v := by
    simpa [beWord] using BitVec.extractLsb'_append_extractLsb'_eq_extractLsb' (x := v) (start₁ := 0) (len₁ := 8) (start₂ := 8) (len₂ := 8) rfl
  simp [Memory.writeWord, Memory.readWord, Memory.read_write_same, Memory.read_write_other, hw]

theorem Memory.risesFrom_write {cap lo : Nat} {m : Memory} {a : Nat} (v : Byte) (hm : m.risesFrom cap lo = true)
    (hlo : lo ≤ a) (ha : a < cap) : (m.write a v).risesFrom cap lo = true := by
  induction m generalizing lo with
  | nil => simp [Memory.write, Memory.risesFrom, hlo, ha]
  | cons c m ih =>
    obtain ⟨k, b⟩ := c
    simp only [Memory.risesFrom, Bool.and_eq_true, decide_eq_true_eq] at hm
    simp only [Memory.write]
    split
    · rename_i h
      simp [Memory.risesFrom, hlo, ha, hm.1.2, hm.2]; omega
    · split
      · rename_i h; subst h; simp [Memory.risesFrom, hlo, ha, hm.2]
      · simp [Memory.risesFrom, hm.1.1, hm.1.2]
        exact ih hm.2 (by omega)

/-- Writing a cell of the memory keeps the canonical form. -/
theorem Memory.wf_write {cap : Nat} {m : Memory} {a : Nat} (v : Byte) (hm : m.wf cap = true) (ha : a < cap) :
    (m.write a v).wf cap = true :=
  Memory.risesFrom_write v hm (Nat.zero_le a) ha

theorem Memory.wf_writeWord {cap : Nat} {m : Memory} {a : Nat} (v : Word) (hm : m.wf cap = true) (ha : a + 1 < cap) :
    (m.writeWord a v).wf cap = true :=
  Memory.wf_write _ (Memory.wf_write _ hm (by omega)) ha

@[simp] theorem Memory.wf_nil (cap : Nat) : Memory.wf cap [] = true := rfl

theorem Memory.risesFrom_cellsFrom {cap a : Nat} {bs : List Byte} (h : a + bs.length ≤ cap) :
    (Memory.cellsFrom a bs).risesFrom cap a = true := by
  induction bs generalizing a with
  | nil => rfl
  | cons b bs ih =>
    simp only [List.length_cons] at h
    simp [Memory.cellsFrom, Memory.risesFrom, ih (a := a + 1) (by omega)]
    omega

/-- A packet stored from cell 0 up is in the canonical form. -/
theorem Memory.wf_cellsFrom {cap : Nat} {bs : List Byte} (h : bs.length ≤ cap) :
    (Memory.cellsFrom 0 bs).wf cap = true :=
  Memory.risesFrom_cellsFrom (by omega)

theorem Memory.read_cellsFrom (bs : List Byte) (a x : Nat) :
    (Memory.cellsFrom a bs).read x = if a ≤ x then bs[x - a]? else none := by
  induction bs generalizing a with
  | nil => simp [Memory.cellsFrom]
  | cons b bs ih =>
    simp only [Memory.cellsFrom, Memory.read, ih]
    by_cases h : a = x
    · subst h; simp
    · by_cases h2 : a ≤ x
      · have : x - a = (x - (a + 1)) + 1 := by omega
        simp [h, h2, this, show a + 1 ≤ x by omega]
      · simp [h, h2, show ¬ a + 1 ≤ x by omega]

theorem Memory.map_fst_cellsFrom (bs : List Byte) (a : Nat) :
    (Memory.cellsFrom a bs).map Prod.fst = List.range' a bs.length := by
  induction bs generalizing a with
  | nil => rfl
  | cons b bs ih => simp [Memory.cellsFrom, ih, List.range'_succ]

/-- A packet stored from cell 0 up fills exactly the cells below its length. -/
theorem Memory.filled_cellsFrom (bs : List Byte) : (Memory.cellsFrom 0 bs).filled bs.length := by
  simp [Memory.filled, Memory.map_fst_cellsFrom, List.range_eq_range']

theorem Memory.eq_cellsFrom_of_addresses {m : Memory} {a n : Nat} (h : m.map Prod.fst = List.range' a n) :
    m = Memory.cellsFrom a (m.map Prod.snd) := by
  induction m generalizing a n with
  | nil => rfl
  | cons c m ih =>
    cases n with
    | zero => simp at h
    | succ n =>
      simp only [List.map_cons, List.range'_succ, List.cons.injEq] at h
      obtain ⟨h1, h2⟩ := h
      simp only [List.map_cons, Memory.cellsFrom, ← h1]
      rw [← ih (a := c.1 + 1) (n := n) (by rw [h1]; exact h2)]

/-- A filled memory is its bytes, stored from cell 0 up. -/
theorem Memory.filled_eq_cellsFrom {m : Memory} {n : Nat} (h : m.filled n) :
    m = Memory.cellsFrom 0 (m.map Prod.snd) :=
  Memory.eq_cellsFrom_of_addresses (n := n) (by rw [h, List.range_eq_range'])

theorem Memory.filled_length {m : Memory} {n : Nat} (h : m.filled n) : m.length = n := by
  have := congrArg List.length h
  simpa using this

theorem Memory.filled_wf {m : Memory} {n cap : Nat} (h : m.filled n) (hn : n ≤ cap) : m.wf cap = true := by
  rw [Memory.filled_eq_cellsFrom h]
  apply Memory.wf_cellsFrom
  simp [Memory.filled_length h, hn]

/-- Reading a cell of a filled memory gives its byte, and nothing at or above the length. -/
theorem Memory.filled_read {m : Memory} {n : Nat} (h : m.filled n) (a : Nat) :
    m.read a = (m.map Prod.snd)[a]? := by
  conv_lhs => rw [Memory.filled_eq_cellsFrom h]
  simp [Memory.read_cellsFrom]

theorem Memory.write_cellsFrom_end (bs : List Byte) (a : Nat) (v : Byte) :
    (Memory.cellsFrom a bs).write (a + bs.length) v = Memory.cellsFrom a (bs ++ [v]) := by
  induction bs generalizing a with
  | nil => rfl
  | cons b bs ih =>
    simp only [Memory.cellsFrom, List.length_cons, List.cons_append, Memory.write]
    rw [if_neg (by omega), if_neg (by omega)]
    rw [show a + (bs.length + 1) = (a + 1) + bs.length by omega, ih]

/-- Appending a byte to a filled memory fills one cell more. -/
theorem Memory.filled_write {m : Memory} {n : Nat} (h : m.filled n) (v : Byte) : (m.write n v).filled (n + 1) := by
  have e := Memory.write_cellsFrom_end (m.map Prod.snd) 0 v
  rw [← Memory.filled_eq_cellsFrom h] at e
  simp only [List.length_map, Memory.filled_length h, Nat.zero_add] at e
  rw [e]
  have := Memory.filled_cellsFrom (m.map Prod.snd ++ [v])
  simpa [Memory.filled_length h] using this

theorem Memory.filled_nil : Memory.filled [] 0 := rfl

theorem Memory.readRange_cellsFrom (m : Memory) (bs : List Byte) (a : Nat)
    (h : ∀ k, k < bs.length → m.read (a + k) = bs[k]?) : m.readRange a bs.length = some bs := by
  induction bs generalizing a with
  | nil => rfl
  | cons b bs ih =>
    have h0 : m.read a = some b := by simpa using h 0 (by simp)
    have := ih (a + 1) fun k hk => by
      have := h (k + 1) (by simpa using hk)
      rw [show a + 1 + k = a + (k + 1) by omega, this]; simp
    simp [Memory.readRange, h0, this]

/-- What reading a range gives, where it gives anything: as many bytes as cells, each the byte of its cell. -/
theorem Memory.readRange_some {m : Memory} {a n : Nat} {bs : List Byte} (h : m.readRange a n = some bs) :
    bs.length = n ∧ ∀ k, k < n → m.read (a + k) = bs[k]? := by
  induction n generalizing a bs with
  | zero => simp only [Memory.readRange, Option.some.injEq] at h; subst h; simp
  | succ n ih =>
    simp only [Memory.readRange] at h
    split at h
    · cases h
    · rename_i b hb
      obtain ⟨bs', h', rfl⟩ := Option.map_eq_some_iff.1 h
      obtain ⟨hl, hr⟩ := ih h'
      refine ⟨by simp [hl], fun k hk => ?_⟩
      cases k with
      | zero => simpa using hb
      | succ k => rw [show a + (k + 1) = a + 1 + k by omega, hr k (by omega)]; simp

/-- Reading all the cells of a filled memory gives its bytes. -/
theorem Memory.filled_readRange {m : Memory} {n : Nat} (h : m.filled n) :
    m.readRange 0 n = some (m.map Prod.snd) := by
  have := Memory.readRange_cellsFrom m (m.map Prod.snd) 0 fun k _ => by rw [Nat.zero_add, Memory.filled_read h]
  simpa [Memory.filled_length h] using this

end Sys2Proof.Machine
end

