-- ==== Sys2Proof/Laws/State.lean ====
section
/-! SUPPORT. One lemma per field per named update of State, each true by unfolding. -/

namespace Sys2Proof.Machine

@[simp] theorem respond_crc (r : Response) (s : State) : (respond r s).crc = s.crc := rfl
@[simp] theorem respond_sum (r : Response) (s : State) : (respond r s).sum = s.sum := rfl
@[simp] theorem respond_plen (r : Response) (s : State) : (respond r s).plen = s.plen := rfl
@[simp] theorem respond_klen (r : Response) (s : State) : (respond r s).klen = s.klen := rfl
@[simp] theorem respond_result (r : Response) (s : State) : (respond r s).result = s.result := rfl
@[simp] theorem respond_status (r : Response) (s : State) : (respond r s).status = s.status := rfl
@[simp] theorem respond_pay (r : Response) (s : State) : (respond r s).pay = s.pay := rfl
@[simp] theorem respond_pkt (r : Response) (s : State) : (respond r s).pkt = s.pkt := rfl
@[simp] theorem respond_cmds (r : Response) (s : State) : (respond r s).cmds = s.cmds := rfl
@[simp] theorem respond_resp (r : Response) (s : State) : (respond r s).resp = some r := rfl

@[simp] theorem takeFault_crc (f : BlockFault) (s : State) : (takeFault f s).crc = s.crc := rfl
@[simp] theorem takeFault_sum (f : BlockFault) (s : State) : (takeFault f s).sum = s.sum := rfl
@[simp] theorem takeFault_plen (f : BlockFault) (s : State) : (takeFault f s).plen = s.plen := rfl
@[simp] theorem takeFault_klen (f : BlockFault) (s : State) : (takeFault f s).klen = s.klen := rfl
@[simp] theorem takeFault_result (f : BlockFault) (s : State) : (takeFault f s).result = s.result := rfl
@[simp] theorem takeFault_status (f : BlockFault) (s : State) : (takeFault f s).status = packStatus (faultCode f) 1 := rfl
@[simp] theorem takeFault_pay (f : BlockFault) (s : State) : (takeFault f s).pay = s.pay := rfl
@[simp] theorem takeFault_pkt (f : BlockFault) (s : State) : (takeFault f s).pkt = s.pkt := rfl
@[simp] theorem takeFault_cmds (f : BlockFault) (s : State) : (takeFault f s).cmds = s.cmds := rfl
@[simp] theorem takeFault_resp (f : BlockFault) (s : State) : (takeFault f s).resp = some (.fault (faultCode f)) := rfl

@[simp] theorem refuseHalted_crc (s : State) : (refuseHalted s).crc = s.crc := rfl
@[simp] theorem refuseHalted_sum (s : State) : (refuseHalted s).sum = s.sum := rfl
@[simp] theorem refuseHalted_plen (s : State) : (refuseHalted s).plen = s.plen := rfl
@[simp] theorem refuseHalted_klen (s : State) : (refuseHalted s).klen = s.klen := rfl
@[simp] theorem refuseHalted_result (s : State) : (refuseHalted s).result = s.result := rfl
@[simp] theorem refuseHalted_status (s : State) : (refuseHalted s).status = s.status := rfl
@[simp] theorem refuseHalted_pay (s : State) : (refuseHalted s).pay = s.pay := rfl
@[simp] theorem refuseHalted_pkt (s : State) : (refuseHalted s).pkt = s.pkt := rfl
@[simp] theorem refuseHalted_cmds (s : State) : (refuseHalted s).cmds = s.cmds := rfl
@[simp] theorem refuseHalted_resp (s : State) : (refuseHalted s).resp = some (.fault 6) := rfl

@[simp] theorem resetBlock_crc (s : State) : (resetBlock s).crc = 0 := rfl
@[simp] theorem resetBlock_sum (s : State) : (resetBlock s).sum = 0 := rfl
@[simp] theorem resetBlock_plen (s : State) : (resetBlock s).plen = 0 := rfl
@[simp] theorem resetBlock_klen (s : State) : (resetBlock s).klen = 0 := rfl
@[simp] theorem resetBlock_result (s : State) : (resetBlock s).result = 0 := rfl
@[simp] theorem resetBlock_status (s : State) : (resetBlock s).status = 0 := rfl
@[simp] theorem resetBlock_pay (s : State) : (resetBlock s).pay = [] := rfl
@[simp] theorem resetBlock_pkt (s : State) : (resetBlock s).pkt = [] := rfl
@[simp] theorem resetBlock_cmds (s : State) : (resetBlock s).cmds = s.cmds := rfl
@[simp] theorem resetBlock_resp (s : State) : (resetBlock s).resp = s.resp := rfl

@[simp] theorem presentCommand_crc (w : Word) (s : State) : (presentCommand w s).crc = s.crc := rfl
@[simp] theorem presentCommand_sum (w : Word) (s : State) : (presentCommand w s).sum = s.sum := rfl
@[simp] theorem presentCommand_plen (w : Word) (s : State) : (presentCommand w s).plen = s.plen := rfl
@[simp] theorem presentCommand_klen (w : Word) (s : State) : (presentCommand w s).klen = s.klen := rfl
@[simp] theorem presentCommand_result (w : Word) (s : State) : (presentCommand w s).result = s.result := rfl
@[simp] theorem presentCommand_status (w : Word) (s : State) : (presentCommand w s).status = s.status := rfl
@[simp] theorem presentCommand_pay (w : Word) (s : State) : (presentCommand w s).pay = s.pay := rfl
@[simp] theorem presentCommand_pkt (w : Word) (s : State) : (presentCommand w s).pkt = s.pkt := rfl
@[simp] theorem presentCommand_cmds (w : Word) (s : State) : (presentCommand w s).cmds = w :: s.cmds := rfl
@[simp] theorem presentCommand_resp (w : Word) (s : State) : (presentCommand w s).resp = s.resp := rfl

end Sys2Proof.Machine
end

