-- ==== Sys2Proof/Laws/Ops.lean ====
section
/-! SUPPORT. For each shared operation, once, everything it can do. -/

namespace Sys2Proof.Machine

/-- A running block performs the command (R111). -/
theorem unlessHalted_running {s : State} (h : halted s = false) (c : Result) : unlessHalted s c = c := by
  simp [unlessHalted, h]

/-- A halted block refuses it (R113). -/
theorem unlessHalted_halted {s : State} (h : halted s = true) (c : Result) :
    unlessHalted s c = .next (refuseHalted s) := by
  simp [unlessHalted, h]

/-- All that the check for the halted state can answer. -/
theorem unlessHalted_next_cases {s t : State} {c : Result} (h : unlessHalted s c = .next t) :
    (halted s = true ∧ t = refuseHalted s) ∨ (halted s = false ∧ c = .next t) := by
  cases hh : halted s
  · exact .inr ⟨rfl, by rwa [unlessHalted_running hh] at h⟩
  · rw [unlessHalted_halted hh] at h
    exact .inl ⟨rfl, by injection h with h; exact h.symm⟩

theorem answer_eq_next {v : Word} {s t : State} : answer v s = .next t ↔ t = respond (.ok v) s := by
  simp only [answer, Host.Outcome.next.injEq]; exact eq_comm

theorem raise_eq_next {f : BlockFault} {s t : State} : raise f s = .next t ↔ t = takeFault f s := by
  simp only [raise, Host.Outcome.next.injEq]; exact eq_comm

/-- Below the capacity the append address mode writes the cell. -/
theorem appendByte_below {cap a : Nat} (h : a < cap) (m : Memory) (b : Byte) :
    appendByte cap m a b = .ok (m.write a b) := by
  simp [appendByte, h]

/-- All that the append address mode can answer. -/
theorem appendByte_cases (cap : Nat) (m : Memory) (a : Nat) (b : Byte) :
    (a < cap ∧ appendByte cap m a b = .ok (m.write a b)) ∨ (cap ≤ a ∧ appendByte cap m a b = .error .noSuchCell) := by
  by_cases h : a < cap
  · exact .inl ⟨h, by simp [appendByte, h]⟩
  · exact .inr ⟨by omega, by simp [appendByte, h]⟩

/-- The append address mode keeps the canonical form. -/
theorem appendByte_wf {cap a : Nat} {m m' : Memory} {b : Byte} (hm : m.wf cap = true)
    (h : appendByte cap m a b = .ok m') : m'.wf cap = true := by
  rcases appendByte_cases cap m a b with ⟨ha, e⟩ | ⟨_, e⟩
  · rw [e] at h; injection h with h; subst h; exact Memory.wf_write b hm ha
  · rw [e] at h; cases h

/-- The memories of the reset state are in the canonical form. -/
theorem reset_memories_wf : State.reset.pay.wf PAY_CAP = true ∧ State.reset.pkt.wf PKT_CAP = true := ⟨rfl, rfl⟩

@[simp] theorem statusErr_packStatus (e : BitVec 4) (r : BitVec 1) : statusErr (packStatus e r) = r := by
  revert e r; decide

@[simp] theorem statusEcode_packStatus (e : BitVec 4) (r : BitVec 1) : statusEcode (packStatus e r) = e := by
  revert e r; decide

/-- A fault leaves the block halted (R112). -/
@[simp] theorem halted_takeFault (f : BlockFault) (s : State) : halted (takeFault f s) = true := by
  simp [halted]

@[simp] theorem halted_resetBlock (s : State) : halted (resetBlock s) = false := by
  simp only [halted, resetBlock_status]; decide

/-- STATUS after a fault that is recorded is one of its values (R14). -/
theorem statusLegal_recorded {f : BlockFault} (h : f ≠ .halted) : StatusLegal (packStatus (faultCode f) 1) := by
  cases f <;> first | exact absurd rfl h | decide

theorem takeCommand_nil {s : State} (h : s.cmds = []) : takeCommand s = none := by
  simp [takeCommand, h]

theorem takeCommand_cons {s : State} {w : Word} {rest : List Word} (h : s.cmds = w :: rest) :
    takeCommand s = some (w, { s with cmds := rest }) := by
  simp [takeCommand, h]

theorem takeCommand_presentCommand (w : Word) (s : State) : takeCommand (presentCommand w s) = some (w, s) := by
  simp [takeCommand]

end Sys2Proof.Machine
end

