-- ==== Sys2Proof/Laws/PerInstr.lean ====
section
/-! SUPPORT. A law of every command, one lemma per constructor of Instr: its word selects its own row of the opcode
map (R47). -/

namespace Sys2Proof.Laws.EncodedInRow

open Sys2Proof

/-- The word of the command selects the row of the opcode map that carries its mnemonic. -/
def Statement (i : Instr) : Prop :=
  ∃ r ∈ opcodeMap, r.mnemonic = mnemonicOf i ∧ r.selects (encode i) = true

theorem crcClr : Statement .crcClr := ⟨⟨"CRC.CLR", 0x1000, 0xFFFF⟩, by decide, rfl, by decide⟩

theorem crcUpd (b : Byte) : Statement (.crcUpd b) :=
  ⟨⟨"CRC.UPD", 0x2000, 0xFF00⟩, by decide, rfl, by revert b; decide +kernel⟩

theorem crcRd : Statement .crcRd := ⟨⟨"CRC.RD", 0x3000, 0xFFFF⟩, by decide, rfl, by decide⟩

theorem sumClr : Statement .sumClr := ⟨⟨"SUM.CLR", 0x4000, 0xFFFF⟩, by decide, rfl, by decide⟩

theorem sumUpd (b : Byte) : Statement (.sumUpd b) :=
  ⟨⟨"SUM.UPD", 0x5000, 0xFF00⟩, by decide, rfl, by revert b; decide +kernel⟩

theorem sumRd : Statement .sumRd := ⟨⟨"SUM.RD", 0x6000, 0xFFFF⟩, by decide, rfl, by decide⟩

theorem payClr : Statement .payClr := ⟨⟨"PAY.CLR", 0x7000, 0xFFFF⟩, by decide, rfl, by decide⟩

theorem payPush (b : Byte) : Statement (.payPush b) :=
  ⟨⟨"PAY.PUSH", 0x8000, 0xFF00⟩, by decide, rfl, by revert b; decide +kernel⟩

theorem pktClr : Statement .pktClr := ⟨⟨"PKT.CLR", 0x9000, 0xFFFF⟩, by decide, rfl, by decide⟩

theorem pktPush (b : Byte) : Statement (.pktPush b) :=
  ⟨⟨"PKT.PUSH", 0xA000, 0xFF00⟩, by decide, rfl, by revert b; decide +kernel⟩

theorem pktRd (i : Index) : Statement (.pktRd i) :=
  ⟨⟨"PKT.RD", 0xB000, 0xF800⟩, by decide, rfl, by revert i; decide +kernel⟩

theorem enc (seq : Byte) (prof : Profile) (mode : IntegrityMode) : Statement (.enc seq prof mode) :=
  ⟨⟨"ENC", 0xC000, 0xFC00⟩, by decide, rfl, by cases prof <;> cases mode <;> (revert seq; decide +kernel)⟩

theorem val (expseq : Byte) (mode : IntegrityMode) : Statement (.val expseq mode) :=
  ⟨⟨"VAL", 0xD000, 0xFD00⟩, by decide, rfl, by cases mode <;> (revert expseq; decide +kernel)⟩

theorem hdrCls (b : Byte) : Statement (.hdrCls b) :=
  ⟨⟨"HDR.CLS", 0xE000, 0xFF00⟩, by decide, rfl, by revert b; decide +kernel⟩

theorem rst : Statement .rst := ⟨⟨"RST", 0xF000, 0xFFFF⟩, by decide, rfl, by decide⟩

theorem stRd : Statement .stRd := ⟨⟨"ST.RD", 0xF001, 0xFFFF⟩, by decide, rfl, by decide⟩

theorem resRd : Statement .resRd := ⟨⟨"RES.RD", 0xF002, 0xFFFF⟩, by decide, rfl, by decide⟩

theorem plenRd : Statement .plenRd := ⟨⟨"PLEN.RD", 0xF003, 0xFFFF⟩, by decide, rfl, by decide⟩

theorem klenRd : Statement .klenRd := ⟨⟨"KLEN.RD", 0xF004, 0xFFFF⟩, by decide, rfl, by decide⟩

end Sys2Proof.Laws.EncodedInRow
end

