-- ==== Sys2Proof/Tests/Slice0.lean ====
section
/-! SUPPORT. The model's own tests. Expected words, responses and states are those of spec/30_encoding.md R47 and R50 and
of the vectors of spec/95_test_vectors.md, whose id each test names. The witnesses at the end meet the hypotheses of the
statements. -/

namespace Sys2Proof.Tests

open Sys2Proof Sys2Proof.Machine

/-! ## Helpers -/

/-- The next state, if there is one. -/
def nextOf (r : Result) : Option State :=
  match r with
  | .next t => some t
  | _ => none

/-- The response of a next state. -/
def respOf (r : Result) : Option Response := (nextOf r).bind (·.resp)

/-- What a field is after the command. -/
def after {α : Type} (f : State → α) (r : Result) : Option α := (nextOf r).map f

/-- The reset state with bytes in PAY. -/
def withPay (bs : List Byte) : State :=
  { State.reset with pay := Memory.cellsFrom 0 bs, plen := BitVec.ofNat 11 bs.length }

/-- The reset state with bytes in PKT. -/
def withPkt (bs : List Byte) : State :=
  { State.reset with pkt := Memory.cellsFrom 0 bs, klen := BitVec.ofNat 11 bs.length }

theorem withPay_plen {bs : List Byte} (h : bs.length ≤ 1024) : (withPay bs).plen.toNat = bs.length := by
  simp only [withPay, BitVec.toNat_ofNat]; omega

theorem withPay_filled {bs : List Byte} (h : bs.length ≤ 1024) : PayFilled (withPay bs) := by
  refine ⟨by rw [withPay_plen h]; exact h, ?_⟩
  rw [withPay_plen h]; exact Memory.filled_cellsFrom bs

theorem withPkt_klen {bs : List Byte} (h : bs.length ≤ 1029) : (withPkt bs).klen.toNat = bs.length := by
  simp only [withPkt, BitVec.toNat_ofNat]; omega

theorem withPkt_filled {bs : List Byte} (h : bs.length ≤ 1029) : PktFilled (withPkt bs) := by
  refine ⟨by rw [withPkt_klen h]; exact h, ?_⟩
  rw [withPkt_klen h]; exact Memory.filled_cellsFrom bs

/-- A full PAY. -/
def fullPay : List Byte := List.replicate 1024 0xAA

/-- A full PKT. -/
def fullPkt : List Byte := List.replicate 1029 0x55

theorem fullPay_length : fullPay.length = 1024 := List.length_replicate

theorem fullPkt_length : fullPkt.length = 1029 := List.length_replicate

/-- A block halted with E_INDEX. -/
def haltedState : State := { State.reset with status := 0x0051 }

/-- V-ENC-1 in full. -/
def vEnc1 : List Byte := [0x01, 0x01, 0xFE, 0x48, 0x69] ++ List.replicate 126 0x1A ++ [0x7D]

/-- V-ENC-2: the same in CRC mode. -/
def vEnc2 : List Byte := [0x01, 0x01, 0xFE, 0x48, 0x69] ++ List.replicate 126 0x1A ++ [0x6B, 0xE0]

/-- V-VAL-25's packet, numbered 0, 1024-byte profile. -/
def vVal25 : List Byte := [0x02, 0x00, 0xFF, 0x01, 0x02, 0x03] ++ List.replicate 1021 0x1A ++ [0xB8]

/-! ## Well-formedness: each check refuses an ill-formed line -/

theorem test_wf_accepts : AsmLine.wellFormed ⟨"ENC", [.num 255, .word "1K", .word "CRC"]⟩ = true := by decide
theorem test_wf_unknown_mnemonic : AsmLine.wellFormed ⟨"NOP", []⟩ = false := by decide
theorem test_wf_operand_count : AsmLine.wellFormed ⟨"RST", [.num 0]⟩ = false := by decide
theorem test_wf_operand_missing : AsmLine.wellFormed ⟨"CRC.UPD", []⟩ = false := by decide
theorem test_wf_byte : AsmLine.wellFormed ⟨"CRC.UPD", [.num 256]⟩ = false := by decide
theorem test_wf_index : AsmLine.wellFormed ⟨"PKT.RD", [.num 2048]⟩ = false := by decide
theorem test_wf_profile : AsmLine.wellFormed ⟨"ENC", [.num 1, .num 129, .word "CRC"]⟩ = false := by decide
theorem test_wf_profile_word : AsmLine.wellFormed ⟨"ENC", [.num 1, .word "2K", .word "CRC"]⟩ = false := by decide
theorem test_wf_mode : AsmLine.wellFormed ⟨"VAL", [.num 1, .word "MD5"]⟩ = false := by decide
theorem test_wf_load_byte : AsmLine.wellFormed ⟨"CRC.OF", [.num 256]⟩ = false := by decide
theorem test_wf_load_text : AsmLine.wellFormed ⟨"CRC.OF", [.text [0x20AC]]⟩ = false := by decide
theorem test_wf_load_word : AsmLine.wellFormed ⟨"PAY.LOAD", [.word "SUM"]⟩ = false := by decide
theorem test_wf_pay_limit : AsmLine.wellFormed ⟨"PAY.LOAD", [.text (List.replicate 1025 0x41)]⟩ = false := by
  decide +kernel
theorem test_wf_pkt_limit : AsmLine.wellFormed ⟨"PKT.LOAD", [.text (List.replicate 1030 0x41)]⟩ = false := by
  decide +kernel

/-! ## Decoding: one word of each constructor, written out from the patterns of R47 -/

theorem test_decode_crcClr : decode 0b0001000000000000 = .ok .crcClr := by decide
theorem test_decode_crcUpd : decode 0b0010000010100101 = .ok (.crcUpd 0xA5) := by decide
theorem test_decode_crcRd : decode 0b0011000000000000 = .ok .crcRd := by decide
theorem test_decode_sumClr : decode 0b0100000000000000 = .ok .sumClr := by decide
theorem test_decode_sumUpd : decode 0b0101000010100101 = .ok (.sumUpd 0xA5) := by decide
theorem test_decode_sumRd : decode 0b0110000000000000 = .ok .sumRd := by decide
theorem test_decode_payClr : decode 0b0111000000000000 = .ok .payClr := by decide
theorem test_decode_payPush : decode 0b1000000010100101 = .ok (.payPush 0xA5) := by decide
theorem test_decode_pktClr : decode 0b1001000000000000 = .ok .pktClr := by decide
theorem test_decode_pktPush : decode 0b1010000010100101 = .ok (.pktPush 0xA5) := by decide
theorem test_decode_pktRd : decode 0b1011010000000101 = .ok (.pktRd 1029) := by decide
theorem test_decode_enc : decode 0b1100000110000001 = .ok (.enc 0x81 .p1K .sum) := by decide
theorem test_decode_val : decode 0b1101001010000001 = .ok (.val 0x81 .crc) := by decide
theorem test_decode_hdrCls : decode 0b1110000000011000 = .ok (.hdrCls 0x18) := by decide
theorem test_decode_rst : decode 0b1111000000000000 = .ok .rst := by decide
theorem test_decode_stRd : decode 0b1111000000000001 = .ok .stRd := by decide
theorem test_decode_resRd : decode 0b1111000000000010 = .ok .resRd := by decide
theorem test_decode_plenRd : decode 0b1111000000000011 = .ok .plenRd := by decide
theorem test_decode_klenRd : decode 0b1111000000000100 = .ok .klenRd := by decide

/-- The illegal words of 95 section 2.10 and of the families, each under its class (a) to (g). -/
theorem test_decode_illegal :
    decode 0x0FFF = .error .opcodeZero ∧ decode 0x1001 = .error .argNotZero ∧
    decode 0x2100 = .error .aboveByteNotZero ∧ decode 0xB800 = .error .aboveIndexNotZero ∧
    decode 0xC400 = .error .encReserved ∧ decode 0xC800 = .error .encReserved ∧
    decode 0xD100 = .error .valReserved ∧ decode 0xD400 = .error .valReserved ∧ decode 0xF005 = .error .sysUnassigned ∧
    decode 0xFFFF = .error .sysUnassigned := by decide

/-- The encoder on R50's examples. -/
theorem test_encode_examples :
    encode (.pktRd 131) = 0xB083 ∧ encode (.enc 255 .p1K .crc) = 0xC3FF ∧ encode (.enc 1 .p128 .sum) = 0xC001 ∧
    encode (.val 2 .crc) = 0xD202 := by decide

/-! ## Streaming commands -/

/-- V-STR-1 -/
theorem test_crcClr :
    after (·.crc) (exec .crcClr { State.reset with crc := 0x31C3 }) = some 0x0000 := by decide

/-- V-STR-5 -/
theorem test_crcUpd_high_bits :
    respOf (exec (.crcUpd 0xFF) { State.reset with crc := 0xFFFF }) = some (.ok 0xFF00) := by decide

/-- V-STR-3 -/
theorem test_crcUpd :
    after (·.crc) (exec (.crcUpd 0x32) { State.reset with crc := 0x2672 }) = some 0x20B5 := by decide

/-- V-STR-6 -/
theorem test_crcRd : respOf (exec .crcRd { State.reset with crc := 0x31C3 }) = some (.ok 0x31C3) := by decide

/-- V-STR-7 -/
theorem test_sumClr : after (·.sum) (exec .sumClr { State.reset with sum := 0x7D }) = some 0x00 := by decide

/-- V-STR-11 -/
theorem test_sumUpd_wraps :
    respOf (exec (.sumUpd 0xFF) { State.reset with sum := 0xFF }) = some (.ok 0x00FE) := by decide

/-- V-STR-9 -/
theorem test_sumUpd : after (·.sum) (exec (.sumUpd 0x69) { State.reset with sum := 0x48 }) = some 0xB1 := by decide

/-- V-STR-12 -/
theorem test_sumRd : respOf (exec .sumRd { State.reset with sum := 0x7D }) = some (.ok 0x007D) := by decide

/-- V-CRC-14, V-CRC-15, V-SUM-5, V-SUM-11 -/
theorem test_integrity_functions :
    crc16 [0x31, 0x32, 0x33, 0x34, 0x35, 0x36, 0x37, 0x38, 0x39] = 0x31C3 ∧ crc16 [0x00, 0x31] = 0x2672 ∧
    sum8 [0xFF, 0xFF] = 0xFE ∧ sum8 ([0x48, 0x69] ++ List.replicate 126 0x1A) = 0x7D := by decide +kernel

/-! ## Buffer commands -/

/-- V-BUF-1 -/
theorem test_payClr :
    after (fun t => (t.plen, t.pay.read 0)) (exec .payClr (withPay [0x48])) = some (0, none) := by decide

/-- V-BUF-3 -/
theorem test_payPush :
    after (fun t => (t.plen, t.pay.read 0, t.pay.read 1, t.resp)) (exec (.payPush 0x69) (withPay [0x48])) =
      some (2, some 0x48, some 0x69, some (.ok 0x0002)) := by decide

/-- V-BUF-5 -/
theorem test_payPush_full :
    after (fun t => (t.plen, t.status, t.resp)) (exec (.payPush 0x00) { State.reset with plen := 1024 }) =
      some (1024, 0x0021, some (.fault 2)) := by decide

/-- V-BUF-6 -/
theorem test_pktClr :
    after (fun t => (t.klen, t.pkt.read 0, t.result))
      (exec .pktClr { withPkt [0x01] with result := 0x0002 }) = some (0, none, 0x0002) := by decide

/-- V-BUF-7 -/
theorem test_pktPush :
    after (fun t => (t.klen, t.pkt.read 0, t.resp)) (exec (.pktPush 0x01) State.reset) =
      some (1, some 0x01, some (.ok 0x0001)) := by decide

/-- V-BUF-9 -/
theorem test_pktPush_full :
    after (fun t => (t.klen, t.status, t.resp)) (exec (.pktPush 0x55) { State.reset with klen := 1029 }) =
      some (1029, 0x0031, some (.fault 3)) := by decide

/-- V-BUF-11, on the last cell of V-ENC-1 -/
theorem test_pktRd : respOf (exec (.pktRd 131) (withPkt vEnc1)) = some (.ok 0x007D) := by decide +kernel

/-- V-BUF-12 -/
theorem test_pktRd_beyond :
    after (fun t => (t.status, t.resp)) (exec (.pktRd 132) (withPkt vEnc1)) =
      some (0x0051, some (.fault 5)) := by decide +kernel

/-! ## ENC and VAL -/

/-- V-ENC-1 -/
theorem test_enc :
    after (fun t => (t.klen, t.pkt, t.resp, t.plen)) (exec (.enc 1 .p128 .sum) (withPay [0x48, 0x69])) =
      some (132, Memory.cellsFrom 0 vEnc1, some (.ok 0x0084), 2) := by decide +kernel

/-- V-ENC-10 -/
theorem test_enc_long_chunk :
    after (fun t => (t.klen, t.pkt, t.status, t.resp)) (exec (.enc 1 .p128 .sum) { State.reset with plen := 129 }) =
      some (0, [], 0x0041, some (.fault 4)) := by decide

set_option maxRecDepth 20000 in
/-- V-ENC-2 -/
theorem test_encodePacket_crc : encodePacket crc16 1 [0x48, 0x69] .p128 .crc = vEnc2 := by decide +kernel

set_option maxRecDepth 20000 in
/-- V-VAL-6, V-VAL-7's length, V-VAL-11, V-VAL-13, V-VAL-14, V-VAL-15 and V-VAL-18, on the function -/
theorem test_validate :
    validate crc16 vEnc2 1 .crc = ⟨.accepted, .noReason, 0⟩ ∧
    validate crc16 (vEnc2.set 3 0x49) 1 .crc = ⟨.rejected, .trailer, 0⟩ ∧
    validate crc16 ((vEnc1.set 2 0xFF).set 131 0x7C) 1 .sum = ⟨.rejected, .complement, 0⟩ ∧
    validate crc16 (vEnc1.set 131 0x7C) 9 .sum = ⟨.rejected, .trailer, 0⟩ ∧
    validate crc16 (vEnc1.set 0 0x04) 1 .sum = ⟨.rejected, .header, 0⟩ ∧
    validate crc16 (vEnc1 ++ [0x00]) 1 .crc = ⟨.rejected, .trailer, 0⟩ ∧
    validate crc16 [0x02] 1 .sum = ⟨.rejected, .length, 1⟩ := by decide +kernel

/-- V-VAL-2: DUPLICATE, and PKT stays -/
theorem test_val_duplicate :
    after (fun t => (t.result, t.resp, t.klen)) (exec (.val 2 .sum) (withPkt vEnc1)) =
      some (0x0002, some (.ok 0x0002), 132) := by decide +kernel

set_option maxRecDepth 20000 in
/-- V-VAL-27: REJECTED, SEQUENCE, 1K; the function on the packet, packed by R83 -/
theorem test_val_rejected_1K : resultWord (validate crc16 vVal25 255 .sum) = 0x0037 := by decide +kernel

/-- V-CLS-4, V-CLS-5 and V-CLS-6 -/
theorem test_hdrCls :
    respOf (exec (.hdrCls 0x18) State.reset) = some (.ok 0x0004) ∧
    respOf (exec (.hdrCls ACK) State.reset) = some (.ok 0x0000) ∧
    respOf (exec (.hdrCls NAK) State.reset) = some (.ok 0x0000) := by decide

/-! ## System commands and faults -/

/-- V-SYS-6 -/
theorem test_rst_leaves_the_halt :
    after (fun t => (t.status, t.plen, t.pay)) (exec .rst { withPay [0x41] with status := 0x0051 }) =
      some (0x0000, 0, []) := by decide

/-- V-FLT-5 -/
theorem test_stRd_while_halted :
    respOf (exec .stRd { State.reset with status := 0x0021 }) = some (.ok 0x0021) := by decide

/-- V-SYS-8 -/
theorem test_resRd : respOf (exec .resRd { State.reset with result := 0x0002 }) = some (.ok 0x0002) := by decide

/-- V-SYS-9 -/
theorem test_plenRd : respOf (exec .plenRd { State.reset with plen := 1024 }) = some (.ok 0x0400) := by decide

/-- V-SYS-7 -/
theorem test_klenRd : respOf (exec .klenRd { State.reset with klen := 1029 }) = some (.ok 0x0405) := by decide

/-- V-FLT-3 and V-FLT-4: halted is checked before illegal and before a command's own fault -/
theorem test_halted_first :
    respOf (perform 0x0000 haltedState) = some (.fault 6) ∧
    after (fun t => (t.status, t.resp)) (perform 0x8000 { haltedState with plen := 1024 }) =
      some (0x0051, some (.fault 6)) := by decide

/-- V-FLT-8: illegal is checked before a command's own fault -/
theorem test_illegal_before_own_fault :
    after (fun t => (t.status, t.resp)) (perform 0x8100 { State.reset with plen := 1024 }) =
      some (0x0011, some (.fault 1)) := by decide

/-- A step takes the next word off the port. -/
theorem test_step_takes_the_word :
    after (fun t => (t.cmds, t.sum)) (step { State.reset with cmds := [0x5048, 0x6000] }) =
      some ([0x6000], 0x48) := by decide

/-- withFetchWord makes the row's word the next one. -/
theorem test_withFetchWord :
    respOf (step (State.reset.withFetchWord 16 0xE002)) = some (.ok 0x0002) ∧
    decodeTableWord 16 0xE002 = some (.hdrCls 0x02) := by decide

/-- P4 steps 3 to 9, as a run of the port's words -/
theorem test_run_fault_and_recovery :
    (runWords [0x8041, 0xB000, 0xF001, 0x8042, 0xF000, 0xF003] State.reset).map (·.2) =
      some [.ok 0x0001, .fault 5, .ok 0x0051, .fault 6, .ok 0x0000, .ok 0x0000] := by decide

/-- R124: a run may end halted; a safe run does not. -/
theorem test_safeRun : safeRun [0x8041, 0xF003] State.reset = true ∧ safeRun [0xB000] State.reset = false := by decide

/-! ## Assembler and command sequences -/

/-- R51's CRC.OF, on text -/
theorem test_assemble_text :
    assembleText "CRC.OF \"12\", 0xff ; end" = some [0x1000, 0x2031, 0x2032, 0x20FF, 0x3000] := by decide

/-- R43, R108: 131 more bytes follow 0x01 in checksum mode (P5), none follow 0x04 -/
theorem test_bytesAfterHeader :
    bytesAfterHeader (classify 0x01) .sum = some 131 ∧ bytesAfterHeader (classify 0x04) .crc = some 0 ∧
    bytesAfterHeader (classify 0x06) .sum = none := by decide

/-- P5: the commands that send packet 3 are 1 + 44 + 1 + 132 -/
theorem test_sendPacket_length :
    (sendPacket 3 (List.replicate 44 0x00) .p128 .sum).length = 1 + 44 + 1 + 132 := by decide +kernel

/-! ## Witnesses: states and operands that meet the hypotheses of the statements -/

theorem witness_StepPerformsTheNextWord_legal :
    ({ State.reset with cmds := [0xF001] } : State).cmds = 0xF001 :: [] ∧ decode 0xF001 = .ok .stRd := by decide

theorem witness_StepPerformsTheNextWord_illegal :
    ({ State.reset with cmds := [0x0000] } : State).cmds = 0x0000 :: [] ∧ decode 0x0000 = .error .opcodeZero ∧
    halted { State.reset with cmds := [0x0000] } = false := by decide

theorem witness_StepPerformsTheNextWord_illegal_halted :
    ({ haltedState with cmds := [0xF005] } : State).cmds = 0xF005 :: [] ∧ decode 0xF005 = .error .sysUnassigned ∧
    halted { haltedState with cmds := [0xF005] } = true := by decide

theorem witness_StepWaitsWithoutAWord : State.reset.cmds = [] := rfl

theorem witness_EncodeOfDecodeIsTheWord : decode 0xD2FF = .ok (.val 255 .crc) := by decide

theorem witness_OpcodeMapIsTheDecoder :
    (⟨"KLEN.RD", 0xF004, 0xFFFF⟩ : OpcodeRow) ∈ opcodeMap ∧
    (⟨"KLEN.RD", 0xF004, 0xFFFF⟩ : OpcodeRow).selects 0xF004 = true ∧
    (∀ r ∈ opcodeMap, r.selects 0xF005 = false) ∧
    decode 0x20FF = .ok (.crcUpd 0xFF) ∧ decode 0x50FF = .ok (.sumUpd 0xFF) ∧ decode 0x80FF = .ok (.payPush 0xFF) ∧
    decode 0xA0FF = .ok (.pktPush 0xFF) ∧ decode 0xE0FF = .ok (.hdrCls 0xFF) ∧ decode 0xB7FF = .ok (.pktRd 2047) ∧
    decode 0xC3FF = .ok (.enc 255 .p1K .crc) ∧ decode 0xD2FF = .ok (.val 255 .crc) := by decide

theorem witness_IllegalWordsAreTheSevenClasses :
    halted State.reset = false ∧ ∃ e, decode 0xD3FF = .error e := ⟨by decide, .valReserved, by decide⟩

theorem witness_PseudoInstructionsExpand : ∀ b ∈ [(0x48 : Byte), 0x69, 0x7F], b.toNat < 128 := by decide

theorem witness_QuotedStringsReadAsWritten : '"' ∉ ['H', 'i', ',', ';'] := by decide

theorem witness_AssemblerRefusesWideOperands :
    256 ≤ 256 ∧ "HDR.CLS" ∈ ["CRC.UPD", "SUM.UPD", "PAY.PUSH", "PKT.PUSH", "HDR.CLS"] ∧ 2048 ≤ 2048 ∧ 255 < 256 := by
  decide

/-- For the statements whose only hypothesis is a running block: CRC.CLR, CRC.UPD, CRC.RD, SUM.CLR, SUM.UPD, SUM.RD,
PAY.CLR, PKT.CLR, HDR.CLS, RES.RD, PLEN.RD, KLEN.RD. -/
theorem witness_running_block : halted { State.reset with crc := 0x31C3, sum := 0x7D, plen := 1024 } = false := by decide

theorem witness_PayPushAppendsOrFaults_full :
    halted { State.reset with plen := 1024 } = false ∧ ({ State.reset with plen := 1024 } : State).plen.toNat = 1024 := by
  decide

theorem witness_PayPushAppendsOrFaults_below :
    halted { State.reset with plen := 1023 } = false ∧ ({ State.reset with plen := 1023 } : State).plen.toNat < 1024 := by
  decide

theorem witness_PktPushAppendsOrFaults_full :
    halted { State.reset with klen := 1029 } = false ∧ ({ State.reset with klen := 1029 } : State).klen.toNat = 1029 := by
  decide

theorem witness_PktPushAppendsOrFaults_below :
    halted { State.reset with klen := 1028 } = false ∧ ({ State.reset with klen := 1028 } : State).klen.toNat < 1029 := by
  decide

theorem witness_PktRdReadsOrFaults_beyond :
    halted (withPkt [0x01]) = false ∧ (withPkt [0x01]).klen.toNat ≤ (1 : Index).toNat := by decide

theorem witness_PktRdReadsOrFaults_valid :
    halted (withPkt [0x01]) = false ∧ PktFilled (withPkt [0x01]) ∧ (0 : Index).toNat < (withPkt [0x01]).klen.toNat := by
  decide

theorem witness_EncStoresThePacketOrFaults_long :
    halted { State.reset with plen := 129 } = false ∧ size .p128 < ({ State.reset with plen := 129 } : State).plen.toNat := by
  decide

/-- The boundary of ENC, of EncTrailerReadsBigEndian and of EncThenValAccepts: a full chunk of the 1024-byte profile. -/
theorem witness_EncStoresThePacketOrFaults_full :
    halted (withPay fullPay) = false ∧ PayFilled (withPay fullPay) ∧ (withPay fullPay).plen.toNat ≤ size .p1K :=
  ⟨rfl, withPay_filled fullPay_length.le, by rw [withPay_plen fullPay_length.le, fullPay_length]; decide⟩

/-- The other boundary: no chunk at all. -/
theorem witness_EncStoresThePacketOrFaults_empty :
    halted State.reset = false ∧ PayFilled State.reset ∧ State.reset.plen.toNat ≤ size .p128 := by decide

theorem witness_EncTrailerReadsBigEndian :
    halted State.reset = false ∧ PayFilled State.reset ∧ State.reset.plen.toNat ≤ size .p128 ∧
    ∃ t, exec (.enc 0 .p128 .crc) State.reset = .next t := ⟨by decide, by decide, by decide, _, rfl⟩

/-- For PacketLayout, EncodeFacts, EncodeValidateRoundTrip and HeaderTellsThePacketLength; with `mode` either one. -/
theorem witness_chunk_fits :
    (List.replicate 128 (0xAA : Byte)).length ≤ size .p128 ∧ ([] : List Byte).length ≤ size .p1K ∧
    ([] : List Byte).length + 1 ≤ size .p128 ∧ (3 : Byte) ≠ 1 ∧ (3 : Byte) ≠ 1 + 1 ∧
    IntegrityMode.sum ≠ IntegrityMode.crc := by decide +kernel

/-- PacketLayout's clauses on a chunk byte and on a fill byte. -/
theorem witness_PacketLayout :
    [(0x48 : Byte), 0x69].length ≤ size .p128 ∧ 1 < [(0x48 : Byte), 0x69].length ∧
    [(0x48 : Byte), 0x69].length ≤ 127 ∧ 127 < size .p128 := by decide

theorem witness_FlippedPayloadBitIsRejected :
    [(0x48 : Byte), 0x69].length ≤ size .p1K ∧ 1023 < size .p1K ∧ 7 < 8 := by decide

theorem witness_ValWritesTheVerdict : halted State.reset = false ∧ PktFilled State.reset := by decide

theorem witness_ValWritesTheVerdict_packet : halted (withPkt vEnc1) = false ∧ PktFilled (withPkt vEnc1) := by
  decide +kernel

theorem witness_SumLaws : ([0x01, 0x02] : List Byte).Perm [0x02, 0x01] := by decide

/-- For SumDetectsABitFlip and CrcDetectsABitFlip. -/
theorem witness_bit_flip : 1 < ([0x01, 0x02] : List Byte).length ∧ 7 < 8 := by decide

theorem witness_CrcIsLinear : ([0x12, 0x34, 0x56] : List Byte).length = ([0xAB, 0xCD, 0xEF] : List Byte).length := by decide

theorem witness_StRdAnswersStatus : StatusLegal haltedState.status := by decide

theorem witness_ResRdAnswersResult :
    halted { State.reset with result := 0x0037 } = false ∧ ResultLegal 0x0037 ∧
    Instr.pktClr ≠ .rst ∧ (∀ e m, Instr.pktClr ≠ .val e m) ∧ (nextOf (exec .pktClr State.reset)).isSome = true :=
  ⟨by decide, by decide, by decide, nofun, by decide⟩

/-- A run from reset without VAL that does not end halted, through a fault and RST: PKT.RD 0, RST, PKT.PUSH 1. -/
theorem witness_ResRdAnswersResult_before_val :
    (runWords [0xB000, 0xF000, 0xA001] State.reset).map (fun r => halted r.1) = some false ∧
    decode 0xB000 = .ok (.pktRd 0) ∧ decode 0xF000 = .ok .rst ∧ decode 0xA001 = .ok (.pktPush 0x01) := by
  decide +kernel

/-- A VAL answered Ok, then PKT.PUSH and ENC, which leave RESULT: V-SYS-8's case, on V-VAL-19. -/
theorem witness_ResRdAnswersResult_after_val :
    nextOf (exec (.val 1 .sum) State.reset) = some { State.reset with result := 0x0007, resp := some (.ok 0x0007) } ∧
    (runWords [0xA001, 0xC000] { State.reset with result := 0x0007, resp := some (.ok 0x0007) }).map
      (fun r => (halted r.1, r.1.result)) = some (false, 0x0007) ∧
    decode 0xA001 = .ok (.pktPush 0x01) ∧ decode 0xC000 = .ok (.enc 0 .p128 .sum) := by decide +kernel

/-- For ReservedBitsReadZero, on stored reserved bits. -/
theorem witness_ReservedBitsReadZero :
    halted { State.reset with result := 0xFFC0, status := 0xFF0E } = false ∧
    respOf (exec .resRd { State.reset with result := 0xFFC7, status := 0xFF0E }) = some (.ok 0x0007) := by decide

theorem witness_inv_full_pay : (withPay fullPay).Inv :=
  ⟨withPay_filled fullPay_length.le, by decide, by decide, by decide⟩

theorem witness_inv_full_pkt : (withPkt fullPkt).Inv :=
  ⟨by decide, withPkt_filled fullPkt_length.le, by decide, by decide⟩

theorem witness_ChecksAreMadeInOrder_halted :
    haltedState.Inv ∧ halted haltedState = true ∧ (0x1000 : Word) ≠ 0xF000 ∧ (0x1000 : Word) ≠ 0xF001 := by decide

theorem witness_ChecksAreMadeInOrder_illegal :
    State.reset.Inv ∧ halted State.reset = false ∧ ∀ r ∈ opcodeMap, r.selects 0xB800 = false := by decide

theorem witness_ChecksAreMadeInOrder_payPush :
    (withPay fullPay).Inv ∧ halted (withPay fullPay) = false ∧ decode 0x8000 = .ok (.payPush 0) ∧
    (withPay fullPay).plen.toNat = 1024 :=
  ⟨witness_inv_full_pay, rfl, by decide, by rw [withPay_plen fullPay_length.le, fullPay_length]⟩

theorem witness_ChecksAreMadeInOrder_enc :
    (withPay fullPay).Inv ∧ decode 0xC000 = .ok (.enc 0 .p128 .sum) ∧ size .p128 < (withPay fullPay).plen.toNat :=
  ⟨witness_inv_full_pay, by decide, by rw [withPay_plen fullPay_length.le, fullPay_length]; decide⟩

theorem witness_ChecksAreMadeInOrder_pktPush :
    (withPkt fullPkt).Inv ∧ halted (withPkt fullPkt) = false ∧ decode 0xA055 = .ok (.pktPush 0x55) ∧
    (withPkt fullPkt).klen.toNat = 1029 :=
  ⟨witness_inv_full_pkt, rfl, by decide, by rw [withPkt_klen fullPkt_length.le, fullPkt_length]⟩

theorem witness_ChecksAreMadeInOrder_pktRd :
    State.reset.Inv ∧ decode 0xB000 = .ok (.pktRd 0) ∧ State.reset.klen.toNat ≤ (0 : Index).toNat := by decide

theorem witness_ChecksAreMadeInOrder_ok :
    State.reset.Inv ∧ decode 0xB7FF = .ok (.pktRd 2047) ∧ decode 0x80FF = .ok (.payPush 0xFF) ∧
    State.reset.plen.toNat ≠ 1024 ∧ decode 0xF000 = .ok .rst := by decide

theorem witness_FaultEntryKeepsAllButStatus :
    after (·.resp) (perform 0x0000 State.reset) = some (some (.fault 1)) ∧ (1 : BitVec 4) ≠ 6 := by decide

theorem witness_HaltedBlockPerformsOnlyRstAndStRd : halted haltedState = true := by decide

theorem witness_ResetState : ∃ t, exec .rst haltedState = .next t ∧ t.status = 0x0000 := ⟨_, rfl, rfl⟩

/-- For EveryWordHasOneResponse, whose clause on commands that return nothing has the word of RST. -/
theorem witness_EveryWordHasOneResponse :
    haltedState.Inv ∧ (0xF000 : Word) ∈ [0x1000#16, 0x4000#16, 0x7000#16, 0x9000#16, 0xF000#16] := by decide

theorem witness_FaultIsStickyUntilRst :
    halted { haltedState with cmds := [0xF000] } = true ∧
    (nextOf (step { haltedState with cmds := [0xF000] })).isSome = true ∧
    (nextOf (step { haltedState with cmds := [0x1000] })).isSome = true := by decide

theorem witness_StepKeepsInvariantAndNeverStops : haltedState.Inv ∧ (withPkt [0x01, 0x02]).Inv := by decide

theorem witness_StepKeepsMemoryForm :
    (withPay [0x48]).pay.wf 1024 = true ∧ (withPay [0x48]).pkt.wf 1029 = true ∧
    (nextOf (step { withPay [0x48] with cmds := [0x8069] })).isSome = true := by decide

/-- A gap is the canonical form but no filled memory; a repeat is neither. -/
theorem test_memory_wf :
    Memory.wf 1024 [(0, 0x48), (5, 0x69)] = true ∧ ¬ Memory.filled [(0, 0x48), (5, 0x69)] 2 ∧
    Memory.wf 1024 [(0, 0x48), (0, 0x69)] = false ∧ Memory.wf 1024 [(1024, 0x48)] = false := by decide

/-- For OnlyNamedCommandsWrite: each premise `t.x ≠ s.x` is met. -/
theorem witness_OnlyNamedCommandsWrite :
    after (·.crc) (exec (.crcUpd 0x31) State.reset) ≠ some State.reset.crc ∧
    after (·.sum) (exec (.sumUpd 0x01) State.reset) ≠ some State.reset.sum ∧
    after (·.plen) (exec (.payPush 0x01) State.reset) ≠ some State.reset.plen ∧
    after (·.pay) (exec (.payPush 0x01) State.reset) ≠ some State.reset.pay ∧
    after (·.klen) (exec (.pktPush 0x01) State.reset) ≠ some State.reset.klen ∧
    after (·.pkt) (exec (.pktPush 0x01) State.reset) ≠ some State.reset.pkt ∧
    after (·.result) (exec (.val 0 .sum) State.reset) ≠ some State.reset.result ∧
    after (·.status) (exec (.pktRd 0) State.reset) ≠ some State.reset.status := by decide

/-- For ReadsHaveNoSideEffect. -/
theorem witness_ReadsHaveNoSideEffect :
    nextOf (exec (.pktRd 0) (withPkt [0x01])) = some { withPkt [0x01] with resp := some (.ok 0x0001) } ∧
    nextOf (exec .stRd haltedState) = some { haltedState with resp := some (.ok 0x0051) } := by decide

/-- For PacketCommandsIgnoreStreamingRegisters. -/
theorem witness_PacketCommandsIgnoreStreamingRegisters :
    (nextOf (exec (.enc 1 .p128 .sum) (withPay [0x48]))).isSome = true ∧
    (nextOf (exec (.val 1 .sum) (withPkt [0x01]))).isSome = true := by decide +kernel

end Sys2Proof.Tests
end

section
/-! ## RST and the reset state (R23, R87) -/

namespace Sys2Proof.Machine

/-- RST has one outcome in every state, halted or not: the reset block, answering 0 (R87, R122). -/
theorem exec_rst_eq_next {s t : State} : exec .rst s = .next t ↔ t = respond (.ok 0x0000) (resetBlock s) :=
  answer_eq_next

/-- The response is no part of the halt, which is STATUS.ERR alone (R113). -/
@[simp] theorem halted_respond (r : Response) (s : State) : halted (respond r s) = halted s := rfl

/-- The block is not halted after power-on reset (R23). -/
@[simp] theorem halted_reset : halted State.reset = false := rfl

/-- Settles O50: power-on reset by its own values, RST by the values `resetBlock` writes in whatever state it finds. -/
theorem resetState : Obligations.ResetState := by
  unfold Obligations.ResetState
  rintro t (rfl | ⟨s, hrst⟩)
  · exact ⟨rfl, rfl, rfl, rfl, rfl, rfl, halted_reset, Memory.read_nil, Memory.read_nil⟩
  · obtain rfl := exec_rst_eq_next.mp hrst
    simp

end Sys2Proof.Machine
end

section
/-! ## The fields of a command word read back (R45, R48) -/

namespace Sys2Proof.Machine

@[simp] theorem opcOf_commandWord (o : BitVec 4) (a : BitVec 12) : opcOf (commandWord o a) = o :=
  BitVec.extractLsb'_append_eq_left

@[simp] theorem argOf_commandWord (o : BitVec 4) (a : BitVec 12) : argOf (commandWord o a) = a :=
  BitVec.extractLsb'_append_eq_right

@[simp] theorem commandWord_opcOf_argOf (w : Word) : commandWord (opcOf w) (argOf w) = w :=
  BitVec.extractLsb'_append_extractLsb'

theorem commandWord_inj {o o' : BitVec 4} {a a' : BitVec 12} :
    commandWord o a = commandWord o' a' ↔ o = o' ∧ a = a' := by
  constructor
  · intro h
    exact ⟨by simpa using congrArg opcOf h, by simpa using congrArg argOf h⟩
  · rintro ⟨rfl, rfl⟩; rfl

theorem commandWord_and (o o' : BitVec 4) (a a' : BitVec 12) :
    commandWord o a &&& commandWord o' a' = commandWord (o &&& o') (a &&& a') :=
  BitVec.and_append

@[simp] theorem byteField_byteArg (b : Byte) : byteField (byteArg b) = b := BitVec.extractLsb'_append_eq_right

@[simp] theorem aboveByte_byteArg (b : Byte) : aboveByte (byteArg b) = 0 := BitVec.extractLsb'_append_eq_left

theorem byteArg_byteField {a : BitVec 12} (h : aboveByte a = 0) : byteArg (byteField a) = a := by
  have hsplit : aboveByte a ++ byteField a = a := BitVec.extractLsb'_append_extractLsb'
  rwa [h] at hsplit

@[simp] theorem indexField_indexArg (i : Index) : indexField (indexArg i) = i := BitVec.extractLsb'_append_eq_right

@[simp] theorem aboveIndex_indexArg (i : Index) : aboveIndex (indexArg i) = 0 := BitVec.extractLsb'_append_eq_left

theorem indexArg_indexField {a : BitVec 12} (h : aboveIndex a = 0) : indexArg (indexField a) = a := by
  have hsplit : aboveIndex a ++ indexField a = a := BitVec.extractLsb'_append_extractLsb'
  rwa [h] at hsplit

@[simp] theorem byteField_sessionArg (m p : BitVec 1) (b : Byte) : byteField (sessionArg m p b) = b :=
  BitVec.extractLsb'_append_eq_right

@[simp] theorem profField_sessionArg (m p : BitVec 1) (b : Byte) : profField (sessionArg m p b) = p :=
  (BitVec.extractLsb'_append_eq_of_le (w := 8) le_rfl).trans BitVec.extractLsb'_append_eq_right

@[simp] theorem modeField_sessionArg (m p : BitVec 1) (b : Byte) : modeField (sessionArg m p b) = m :=
  (BitVec.extractLsb'_append_eq_of_le (w := 8) (by decide)).trans <|
    (BitVec.extractLsb'_append_eq_of_le (w := 1) le_rfl).trans BitVec.extractLsb'_append_eq_right

@[simp] theorem aboveMode_sessionArg (m p : BitVec 1) (b : Byte) : aboveMode (sessionArg m p b) = 0 :=
  (BitVec.extractLsb'_append_eq_of_le (w := 8) (by decide)).trans <|
    (BitVec.extractLsb'_append_eq_of_le (w := 1) (by decide)).trans BitVec.extractLsb'_append_eq_left

theorem sessionFields_append (a : BitVec 12) : aboveMode a ++ modeField a ++ profField a ++ byteField a = a := by
  have habove : aboveMode a ++ modeField a = a.extractLsb' 9 3 :=
    BitVec.extractLsb'_append_extractLsb'_eq_extractLsb' rfl
  have hprof : a.extractLsb' 9 3 ++ profField a = a.extractLsb' 8 4 :=
    BitVec.extractLsb'_append_extractLsb'_eq_extractLsb' rfl
  rw [habove, hprof]
  exact BitVec.extractLsb'_append_extractLsb'

theorem sessionArg_fields {a : BitVec 12} (h : aboveMode a = 0) :
    sessionArg (modeField a) (profField a) (byteField a) = a := by
  have hsplit := sessionFields_append a
  rwa [h] at hsplit

@[simp] theorem profOfBit_profBit (prof : Profile) : profOfBit (profBit prof) = prof := by cases prof <;> rfl

@[simp] theorem profBit_profOfBit (b : BitVec 1) : profBit (profOfBit b) = b := by revert b; decide

@[simp] theorem modeOfBit_modeBit (mode : IntegrityMode) : modeOfBit (modeBit mode) = mode := by cases mode <;> rfl

@[simp] theorem modeBit_modeOfBit (b : BitVec 1) : modeBit (modeOfBit b) = b := by revert b; decide

theorem byteField_argOf (w : Word) : byteField (argOf w) = w.extractLsb' 0 8 :=
  BitVec.extractLsb'_extractLsb'_of_le (by decide)

theorem indexField_argOf (w : Word) : indexField (argOf w) = w.extractLsb' 0 11 :=
  BitVec.extractLsb'_extractLsb'_of_le (by decide)

theorem profField_argOf (w : Word) : profField (argOf w) = w.extractLsb' 8 1 :=
  BitVec.extractLsb'_extractLsb'_of_le (by decide)

theorem modeField_argOf (w : Word) : modeField (argOf w) = w.extractLsb' 9 1 :=
  BitVec.extractLsb'_extractLsb'_of_le (by decide)

end Sys2Proof.Machine
end

section
/-! ## The decoder and the encoder are inverse to each other (R47) -/

namespace Sys2Proof.Machine

theorem decode_encode (i : Instr) : decode (encode i) = .ok i := by
  cases i <;> simp [encode, decode, plainShape, byteShape, indexShape, encShape, valShape, sysShape]

theorem encode_injective : Function.Injective encode := fun i j h => by
  simpa [h, decode_encode] using (decode_encode i).symm

section
variable {w : Word} {o : BitVec 4}

/-! A word whose reserved bits are 0 is put together again from its opcode and its operand fields. -/

theorem commandWord_byteField (ho : opcOf w = o) (ha : aboveByte (argOf w) = 0) :
    commandWord o (byteArg (byteField (argOf w))) = w := by
  rw [byteArg_byteField ha, ← ho, commandWord_opcOf_argOf]

theorem encode_pktRd_field (ho : opcOf w = 0xB) (ha : aboveIndex (argOf w) = 0) :
    encode (.pktRd (indexField (argOf w))) = w := by
  rw [encode, indexArg_indexField ha, ← ho, commandWord_opcOf_argOf]

theorem encode_enc_fields (ho : opcOf w = 0xC) (ha : aboveMode (argOf w) = 0) :
    encode (.enc (byteField (argOf w)) (profOfBit (profField (argOf w))) (modeOfBit (modeField (argOf w)))) = w := by
  rw [encode, modeBit_modeOfBit, profBit_profOfBit, sessionArg_fields ha, ← ho, commandWord_opcOf_argOf]

theorem encode_val_fields (ho : opcOf w = 0xD) (ha : aboveMode (argOf w) = 0) (hp : profField (argOf w) = 0) :
    encode (.val (byteField (argOf w)) (modeOfBit (modeField (argOf w)))) = w := by
  rw [encode, modeBit_modeOfBit, ← hp, sessionArg_fields ha, ← ho, commandWord_opcOf_argOf]

end

section
variable {w : Word} {o : BitVec 4} {i : Instr}

/-! The command that a shape reads from a word of its opcode has that word. -/

theorem encode_of_plainShape {c : Instr} (ho : opcOf w = o) (hc : encode c = commandWord o 0)
    (h : plainShape c (argOf w) = .ok i) : encode i = w := by
  unfold plainShape at h
  split at h
  case isTrue ha => cases h; rw [hc, ← ho, ← ha, commandWord_opcOf_argOf]
  case isFalse => cases h

theorem encode_of_byteShape {mk : Byte → Instr} (ho : opcOf w = o)
    (hmk : ∀ b, encode (mk b) = commandWord o (byteArg b)) (h : byteShape mk (argOf w) = .ok i) : encode i = w := by
  unfold byteShape at h
  split at h
  case isTrue ha => cases h; rw [hmk, commandWord_byteField ho ha]
  case isFalse => cases h

theorem encode_of_indexShape (ho : opcOf w = 0xB) (h : indexShape (argOf w) = .ok i) : encode i = w := by
  unfold indexShape at h
  split at h
  case isTrue ha => cases h; exact encode_pktRd_field ho ha
  case isFalse => cases h

theorem encode_of_encShape (ho : opcOf w = 0xC) (h : encShape (argOf w) = .ok i) : encode i = w := by
  unfold encShape at h
  split at h
  case isTrue ha => cases h; exact encode_enc_fields ho ha
  case isFalse => cases h

theorem encode_of_valShape (ho : opcOf w = 0xD) (h : valShape (argOf w) = .ok i) : encode i = w := by
  unfold valShape at h
  split at h
  case isTrue ha =>
    obtain ⟨habove, hprof⟩ := ha
    cases h
    exact encode_val_fields ho habove hprof
  case isFalse => cases h

theorem commandWord_of_toNat {a : BitVec 12} (ho : opcOf w = o) (ha : (argOf w).toNat = a.toNat) :
    commandWord o a = w := by
  rw [← BitVec.eq_of_toNat_eq ha, ← ho, commandWord_opcOf_argOf]

theorem encode_of_sysShape (ho : opcOf w = 0xF) (h : sysShape (argOf w) = .ok i) : encode i = w := by
  unfold sysShape at h
  split at h
  case h_6 => cases h
  all_goals
    rename_i ha
    cases h
    exact commandWord_of_toNat ho ha

/-- A legal word is the word of its command: the other direction of `decode_encode`, opcode by opcode. -/
theorem encode_of_decode (h : decode w = .ok i) : encode i = w := by
  have hopc {k : BitVec 4} : (opcOf w).toNat = k.toNat → opcOf w = k := BitVec.eq_of_toNat_eq
  have hlt := (opcOf w).isLt
  unfold decode at h
  split at h
  next => cases h
  next ho => exact encode_of_plainShape (o := 0x1) (hopc ho) rfl h
  next ho => exact encode_of_byteShape (o := 0x2) (hopc ho) (fun _ => rfl) h
  next ho => exact encode_of_plainShape (o := 0x3) (hopc ho) rfl h
  next ho => exact encode_of_plainShape (o := 0x4) (hopc ho) rfl h
  next ho => exact encode_of_byteShape (o := 0x5) (hopc ho) (fun _ => rfl) h
  next ho => exact encode_of_plainShape (o := 0x6) (hopc ho) rfl h
  next ho => exact encode_of_plainShape (o := 0x7) (hopc ho) rfl h
  next ho => exact encode_of_byteShape (o := 0x8) (hopc ho) (fun _ => rfl) h
  next ho => exact encode_of_plainShape (o := 0x9) (hopc ho) rfl h
  next ho => exact encode_of_byteShape (o := 0xA) (hopc ho) (fun _ => rfl) h
  next ho => exact encode_of_indexShape (hopc ho) h
  next ho => exact encode_of_encShape (hopc ho) h
  next ho => exact encode_of_valShape (hopc ho) h
  next ho => exact encode_of_byteShape (o := 0xE) (hopc ho) (fun _ => rfl) h
  next =>
    have ho : (opcOf w).toNat = 0xF := by simp only [imp_false] at *; omega
    exact encode_of_sysShape (hopc ho) h

theorem decode_eq_ok_iff : decode w = .ok i ↔ encode i = w :=
  ⟨encode_of_decode, fun h => h ▸ decode_encode i⟩

theorem exists_error_iff : (∃ e, decode w = .error e) ↔ ∀ i, decode w ≠ .ok i := by
  cases decode w <;> simp

end

end Sys2Proof.Machine
end

section
/-! ## The rows of the opcode map (R47) -/

namespace Sys2Proof.Machine

theorem encode_selects_row (i : Instr) : ∃ r ∈ opcodeMap, r.mnemonic = mnemonicOf i ∧ r.selects (encode i) = true := by
  cases i with
  | crcClr => exact Laws.EncodedInRow.crcClr
  | crcUpd b => exact Laws.EncodedInRow.crcUpd b
  | crcRd => exact Laws.EncodedInRow.crcRd
  | sumClr => exact Laws.EncodedInRow.sumClr
  | sumUpd b => exact Laws.EncodedInRow.sumUpd b
  | sumRd => exact Laws.EncodedInRow.sumRd
  | payClr => exact Laws.EncodedInRow.payClr
  | payPush b => exact Laws.EncodedInRow.payPush b
  | pktClr => exact Laws.EncodedInRow.pktClr
  | pktPush b => exact Laws.EncodedInRow.pktPush b
  | pktRd n => exact Laws.EncodedInRow.pktRd n
  | enc seq prof mode => exact Laws.EncodedInRow.enc seq prof mode
  | val expseq mode => exact Laws.EncodedInRow.val expseq mode
  | hdrCls b => exact Laws.EncodedInRow.hdrCls b
  | rst => exact Laws.EncodedInRow.rst
  | stRd => exact Laws.EncodedInRow.stRd
  | resRd => exact Laws.EncodedInRow.resRd
  | plenRd => exact Laws.EncodedInRow.plenRd
  | klenRd => exact Laws.EncodedInRow.klenRd

/-- Where a field of the mask is all ones, masking keeps the field. -/
theorem extractLsb'_eq_of_and {n s l : Nat} {a m p : BitVec n} (h : a &&& m = p)
    (hm : m.extractLsb' s l = BitVec.allOnes l) : a.extractLsb' s l = p.extractLsb' s l := by
  rw [← h, BitVec.extractLsb'_and, hm, BitVec.and_allOnes]

section
variable {name : String} {o : BitVec 4} {w : Word}

/-- Every mask of the map covers `opc`; what it asks of `arg` is left. -/
theorem fields_of_selects {p m : BitVec 12}
    (h : (⟨name, commandWord o p, commandWord 0xF m⟩ : OpcodeRow).selects w = true) :
    opcOf w = o ∧ argOf w &&& m = p := by
  have hmask : w &&& commandWord 0xF m = commandWord o p := by simpa [OpcodeRow.selects] using h
  rw [← commandWord_opcOf_argOf w, commandWord_and, commandWord_inj] at hmask
  obtain ⟨ho, ha⟩ := hmask
  exact ⟨by rw [← ho]; exact BitVec.and_allOnes.symm, ha⟩

theorem commandWord_of_selects_plain {p : BitVec 12}
    (h : (⟨name, commandWord o p, commandWord 0xF 0xFFF⟩ : OpcodeRow).selects w = true) : commandWord o p = w := by
  obtain ⟨ho, ha⟩ := fields_of_selects h
  have harg : argOf w = p := BitVec.and_allOnes.symm.trans ha
  rw [← ho, ← harg, commandWord_opcOf_argOf]

theorem commandWord_of_selects_byte
    (h : (⟨name, commandWord o 0, commandWord 0xF 0xF00⟩ : OpcodeRow).selects w = true) :
    commandWord o (byteArg (byteField (argOf w))) = w := by
  obtain ⟨ho, ha⟩ := fields_of_selects h
  exact commandWord_byteField ho (extractLsb'_eq_of_and ha (by decide))

theorem encode_of_selects_pktRd
    (h : (⟨name, commandWord 0xB 0, commandWord 0xF 0x800⟩ : OpcodeRow).selects w = true) :
    encode (.pktRd (indexField (argOf w))) = w := by
  obtain ⟨ho, ha⟩ := fields_of_selects h
  exact encode_pktRd_field ho (extractLsb'_eq_of_and ha (by decide))

theorem encode_of_selects_enc
    (h : (⟨name, commandWord 0xC 0, commandWord 0xF 0xC00⟩ : OpcodeRow).selects w = true) :
    encode (.enc (byteField (argOf w)) (profOfBit (profField (argOf w))) (modeOfBit (modeField (argOf w)))) = w := by
  obtain ⟨ho, ha⟩ := fields_of_selects h
  exact encode_enc_fields ho (extractLsb'_eq_of_and ha (by decide))

theorem encode_of_selects_val
    (h : (⟨name, commandWord 0xD 0, commandWord 0xF 0xD00⟩ : OpcodeRow).selects w = true) :
    encode (.val (byteField (argOf w)) (modeOfBit (modeField (argOf w)))) = w := by
  obtain ⟨ho, ha⟩ := fields_of_selects h
  exact encode_val_fields ho (extractLsb'_eq_of_and ha (by decide)) (extractLsb'_eq_of_and ha (by decide))

end

section
variable {r r' : OpcodeRow} {w : Word}

theorem exists_encode_of_selects (hr : r ∈ opcodeMap) (h : r.selects w = true) :
    ∃ i, encode i = w ∧ mnemonicOf i = r.mnemonic := by
  simp only [opcodeMap, List.mem_cons, List.not_mem_nil, or_false] at hr
  rcases hr with rfl | rfl | rfl | rfl | rfl | rfl | rfl | rfl | rfl | rfl | rfl | rfl | rfl | rfl | rfl | rfl | rfl |
    rfl | rfl
  · exact ⟨.crcClr, commandWord_of_selects_plain h, rfl⟩
  · exact ⟨.crcUpd _, commandWord_of_selects_byte h, rfl⟩
  · exact ⟨.crcRd, commandWord_of_selects_plain h, rfl⟩
  · exact ⟨.sumClr, commandWord_of_selects_plain h, rfl⟩
  · exact ⟨.sumUpd _, commandWord_of_selects_byte h, rfl⟩
  · exact ⟨.sumRd, commandWord_of_selects_plain h, rfl⟩
  · exact ⟨.payClr, commandWord_of_selects_plain h, rfl⟩
  · exact ⟨.payPush _, commandWord_of_selects_byte h, rfl⟩
  · exact ⟨.pktClr, commandWord_of_selects_plain h, rfl⟩
  · exact ⟨.pktPush _, commandWord_of_selects_byte h, rfl⟩
  · exact ⟨.pktRd _, encode_of_selects_pktRd h, rfl⟩
  · exact ⟨.enc _ _ _, encode_of_selects_enc h, rfl⟩
  · exact ⟨.val _ _, encode_of_selects_val h, rfl⟩
  · exact ⟨.hdrCls _, commandWord_of_selects_byte h, rfl⟩
  · exact ⟨.rst, commandWord_of_selects_plain h, rfl⟩
  · exact ⟨.stRd, commandWord_of_selects_plain h, rfl⟩
  · exact ⟨.resRd, commandWord_of_selects_plain h, rfl⟩
  · exact ⟨.plenRd, commandWord_of_selects_plain h, rfl⟩
  · exact ⟨.klenRd, commandWord_of_selects_plain h, rfl⟩

theorem opcodeMap_eq_of_mnemonic_eq : ∀ r ∈ opcodeMap, ∀ r' ∈ opcodeMap, r.mnemonic = r'.mnemonic → r = r' := by
  decide

/-- A row is selected exactly by the words that decode to a command with its mnemonic. -/
theorem selects_iff (hr : r ∈ opcodeMap) :
    r.selects w = true ↔ ∃ i, decode w = .ok i ∧ mnemonicOf i = r.mnemonic := by
  simp only [decode_eq_ok_iff]
  constructor
  · exact exists_encode_of_selects hr
  · rintro ⟨i, rfl, hi⟩
    obtain ⟨r', hr', hm, hs⟩ := encode_selects_row i
    rwa [opcodeMap_eq_of_mnemonic_eq r hr r' hr' (hi.symm.trans hm.symm)]

theorem rows_disjoint (hr : r ∈ opcodeMap) (hr' : r' ∈ opcodeMap) (hs : r.selects w = true)
    (hs' : r'.selects w = true) : r = r' := by
  obtain ⟨i, hi, hm⟩ := (selects_iff hr).mp hs
  obtain ⟨i', hi', hm'⟩ := (selects_iff hr').mp hs'
  obtain rfl : i = i' := by simpa [hi] using hi'
  exact opcodeMap_eq_of_mnemonic_eq r hr r' hr' (hm.symm.trans hm')

theorem illegal_iff_selects_none : (∃ e, decode w = .error e) ↔ ∀ r ∈ opcodeMap, r.selects w = false := by
  rw [exists_error_iff]
  constructor
  · intro h r hr
    rw [Bool.eq_false_iff, ne_eq, selects_iff hr]
    rintro ⟨i, hi, -⟩
    exact h i hi
  · intro h i hi
    obtain ⟨r, hr, -, hs⟩ := encode_selects_row i
    rw [encode_of_decode hi, h r hr] at hs
    cases hs

theorem byteOperand_of_decode {c : Instr} {o : BitVec 4} {b : Byte} (h : decode w = .ok c)
    (hc : encode c = commandWord o (byteArg b)) : b = w.extractLsb' 0 8 := by
  rw [← encode_of_decode h, hc, ← byteField_argOf, argOf_commandWord, byteField_byteArg]

end

/-- Settles O5: a row is selected by the words of its own command only (`selects_iff`), and a legal word is its
command's word, so each operand is read back from its field. -/
theorem opcodeMapIsTheDecoder : Obligations.OpcodeMapIsTheDecoder := by
  unfold Obligations.OpcodeMapIsTheDecoder
  refine ⟨fun w r hr r' hr' => rows_disjoint hr hr', fun w r hr => (selects_iff hr).mp,
    fun w => illegal_iff_selects_none.mpr,
    fun w b h => byteOperand_of_decode h rfl, fun w b h => byteOperand_of_decode h rfl,
    fun w b h => byteOperand_of_decode h rfl, fun w b h => byteOperand_of_decode h rfl,
    fun w b h => byteOperand_of_decode h rfl, ?_, ?_, ?_⟩
  · intro w n h
    rw [← encode_of_decode h, encode, ← indexField_argOf]
    simp
  · intro w seq prof mode h
    rw [← encode_of_decode h, encode, ← byteField_argOf, ← profField_argOf, ← modeField_argOf]
    simp
  · intro w expseq mode h
    rw [← encode_of_decode h, encode, ← byteField_argOf, ← modeField_argOf]
    simp

end Sys2Proof.Machine
end

section
/-! ## The illegal words: their classes and their number (R49) -/

namespace Sys2Proof.Machine

theorem bit_ne_zero_iff {b : BitVec 1} : b ≠ 0 ↔ b = 1 := by revert b; decide

section
variable {a : BitVec 12}

theorem plainShape_error_iff {c : Instr} : (∃ e, plainShape c a = .error e) ↔ a ≠ 0 := by
  unfold plainShape; split <;> simp_all

theorem byteShape_error_iff {mk : Byte → Instr} : (∃ e, byteShape mk a = .error e) ↔ aboveByte a ≠ 0 := by
  unfold byteShape; split <;> simp_all

theorem indexShape_error_iff : (∃ e, indexShape a = .error e) ↔ aboveIndex a = 1 := by
  rw [← bit_ne_zero_iff]
  unfold indexShape; split <;> simp_all

theorem encShape_error_iff : (∃ e, encShape a = .error e) ↔ aboveMode a ≠ 0 := by
  unfold encShape; split <;> simp_all

theorem valShape_error_iff : (∃ e, valShape a = .error e) ↔ aboveMode a ≠ 0 ∨ profField a = 1 := by
  rw [← bit_ne_zero_iff, ← not_and_or]
  unfold valShape; split <;> simp_all

theorem sysShape_error_iff : (∃ e, sysShape a = .error e) ↔ 4 < a.toNat := by
  unfold sysShape
  split
  case h_6 => simp only [imp_false] at *; simp; omega
  all_goals simp [*]

end

/-- The classes (a) to (g), one for each opcode or shape of the decoder's split. -/
theorem illegal_iff_class (w : Word) : (∃ e, decode w = .error e) ↔
    opcOf w = 0x0 ∨
    opcOf w ∈ [0x1#4, 0x3#4, 0x4#4, 0x6#4, 0x7#4, 0x9#4] ∧ argOf w ≠ 0 ∨
    opcOf w ∈ [0x2#4, 0x5#4, 0x8#4, 0xA#4, 0xE#4] ∧ aboveByte (argOf w) ≠ 0 ∨
    opcOf w = 0xB ∧ aboveIndex (argOf w) = 1 ∨
    opcOf w = 0xC ∧ aboveMode (argOf w) ≠ 0 ∨
    opcOf w = 0xD ∧ (aboveMode (argOf w) ≠ 0 ∨ profField (argOf w) = 1) ∨
    opcOf w = 0xF ∧ 0x004 < (argOf w).toNat := by
  have hlt := (opcOf w).isLt
  simp only [← BitVec.toNat_inj (x := opcOf w), List.mem_cons, List.not_mem_nil]
  unfold decode
  split <;> rename_i ho
  case h_16 =>
    have ho : (opcOf w).toNat = 0xF := by simp only [imp_false] at *; omega
    simp [ho, sysShape_error_iff]
  all_goals
    simp [ho, plainShape_error_iff, byteShape_error_iff, indexShape_error_iff, encShape_error_iff, valShape_error_iff]

theorem illegalWord_running {s : State} (h : halted s = false) :
    illegalWord s = .next { s with status := 0x0011, resp := some (.fault 1) } := by
  rw [illegalWord, unlessHalted_running h]; rfl

/-! The legal words are counted through the operand values of the nineteen commands. -/

/-- The operand values by shape (R48): eleven commands without operands, five with a byte, PKT.RD's index, and the
session fields of ENC and of VAL. -/
abbrev OperandValues := Fin 11 ⊕ (Fin 5 × Byte) ⊕ Index ⊕ (Byte × BitVec 1 × BitVec 1) ⊕ (Byte × BitVec 1)

def plainCommand : Fin 11 → Instr :=
  ![.crcClr, .crcRd, .sumClr, .sumRd, .payClr, .pktClr, .rst, .stRd, .resRd, .plenRd, .klenRd]

def byteCommand : Fin 5 → Byte → Instr := ![.crcUpd, .sumUpd, .payPush, .pktPush, .hdrCls]

def commandOfValues : OperandValues → Instr
  | .inl k => plainCommand k
  | .inr (.inl (k, b)) => byteCommand k b
  | .inr (.inr (.inl n)) => .pktRd n
  | .inr (.inr (.inr (.inl (seq, prof, mode)))) => .enc seq (profOfBit prof) (modeOfBit mode)
  | .inr (.inr (.inr (.inr (expseq, mode)))) => .val expseq (modeOfBit mode)

def valuesOfCommand : Instr → OperandValues
  | .crcClr => .inl 0
  | .crcRd => .inl 1
  | .sumClr => .inl 2
  | .sumRd => .inl 3
  | .payClr => .inl 4
  | .pktClr => .inl 5
  | .rst => .inl 6
  | .stRd => .inl 7
  | .resRd => .inl 8
  | .plenRd => .inl 9
  | .klenRd => .inl 10
  | .crcUpd b => .inr (.inl (0, b))
  | .sumUpd b => .inr (.inl (1, b))
  | .payPush b => .inr (.inl (2, b))
  | .pktPush b => .inr (.inl (3, b))
  | .hdrCls b => .inr (.inl (4, b))
  | .pktRd n => .inr (.inr (.inl n))
  | .enc seq prof mode => .inr (.inr (.inr (.inl (seq, profBit prof, modeBit mode))))
  | .val expseq mode => .inr (.inr (.inr (.inr (expseq, modeBit mode))))

def commandEquiv : OperandValues ≃ Instr where
  toFun := commandOfValues
  invFun := valuesOfCommand
  left_inv := by
    rintro (k | ⟨k, b⟩ | n | ⟨seq, prof, mode⟩ | ⟨expseq, mode⟩)
    · revert k; decide
    · fin_cases k <;> rfl
    · rfl
    · simp [commandOfValues, valuesOfCommand]
    · simp [commandOfValues, valuesOfCommand]
  right_inv i := by cases i <;> simp [commandOfValues, valuesOfCommand, plainCommand, byteCommand]

@[simp] theorem fintypeCard_bitVec (n : Nat) : Fintype.card (BitVec n) = 2 ^ n := FinEnum.card_eq_fintypeCard.symm

noncomputable def legalWords : List Word := (Finset.univ.toList.map commandEquiv).map encode

theorem mem_legalWords {w : Word} : w ∈ legalWords ↔ ∃ i, decode w = .ok i := by
  simp [legalWords, decode_eq_ok_iff, commandEquiv.surjective.exists]

theorem legalWords_nodup : legalWords.Nodup :=
  ((Finset.nodup_toList _).map commandEquiv.injective).map encode_injective

/-- 11 + 5 · 256 + 2048 + 4 · 256 + 2 · 256 (R49). -/
theorem legalWords_length : legalWords.length = 4875 := by
  simp [legalWords]

noncomputable def illegalWords : List Word := legalWords.toFinsetᶜ.toList

theorem mem_illegalWords {w : Word} : w ∈ illegalWords ↔ ∃ e, decode w = .error e := by
  rw [illegalWords, Finset.mem_toList, Finset.mem_compl, List.mem_toFinset, mem_legalWords, exists_error_iff,
    not_exists]

theorem illegalWords_length : illegalWords.length = 60661 := by
  rw [illegalWords, Finset.length_toList, Finset.card_compl, List.toFinset_card_of_nodup legalWords_nodup,
    legalWords_length, fintypeCard_bitVec]
  norm_num

theorem legalWords_append_illegalWords_nodup : (legalWords ++ illegalWords).Nodup := by
  refine legalWords_nodup.append (Finset.nodup_toList _) fun w hw hw' => ?_
  obtain ⟨i, hi⟩ := mem_legalWords.mp hw
  exact exists_error_iff.mp (mem_illegalWords.mp hw') i hi

/-- Settles O6: the classes follow the decoder's split by opcode, and the legal words are the words of the commands,
one for each choice of operand values. -/
theorem illegalWordsAreTheSevenClasses : Obligations.IllegalWordsAreTheSevenClasses := by
  unfold Obligations.IllegalWordsAreTheSevenClasses
  refine ⟨fun w => illegal_iff_selects_none, illegal_iff_class, ?_, legalWords, illegalWords,
    legalWords_append_illegalWords_nodup, legalWords_length, illegalWords_length, fun w => mem_legalWords,
    fun w => mem_illegalWords⟩
  rintro w s hs ⟨e, he⟩
  rw [perform, he]
  exact illegalWord_running hs

end Sys2Proof.Machine
end

section
/-! ## The pseudo-instructions of the assembler (R51) -/

namespace Sys2Proof.Machine

theorem fitsByte_toNat (b : Byte) : fitsByte b.toNat = true := by simpa [fitsByte] using b.isLt

/-- The operands of a pseudo-instruction are well-formed and stand for the bytes (R51). -/
def Loads (operands : List AsmOperand) (bytes : List Byte) : Prop :=
  operands.all AsmOperand.fitsLoad = true ∧ operands.flatMap AsmOperand.loadCodes = bytes.map BitVec.toNat

theorem loads_numbers (bytes : List Byte) : Loads (bytes.map fun b => .num b.toNat) bytes := by
  induction bytes with
  | nil => exact ⟨rfl, rfl⟩
  | cons b bs ih =>
    obtain ⟨-, hcodes⟩ := ih
    exact ⟨by simp [AsmOperand.fitsLoad, fitsByte_toNat], by simp [AsmOperand.loadCodes, hcodes]⟩

theorem loads_text (bytes : List Byte) : Loads [.text (bytes.map BitVec.toNat)] bytes :=
  ⟨by simp [AsmOperand.fitsLoad, fitsByte_toNat], by simp [AsmOperand.loadCodes]⟩

section
variable {m : String} {limit : Option Nat} (hm : (m, limit) ∈ pseudoLimit)
include hm

theorem command_pseudo (operands : List AsmOperand) : command m operands = none := by
  simp only [pseudoLimit, List.mem_cons, Prod.mk.injEq, List.not_mem_nil, or_false] at hm
  unfold command
  rcases hm with ⟨rfl, -⟩ | ⟨rfl, -⟩ | ⟨rfl, -⟩ <;> split <;> simp [List.lookup]

theorem wellFormed_pseudo (operands : List AsmOperand) : (⟨m, operands⟩ : AsmLine).wellFormed =
    (operands.all AsmOperand.fitsLoad && withinLimit (operands.flatMap AsmOperand.loadCodes).length limit) := by
  simp only [pseudoLimit, List.mem_cons, Prod.mk.injEq, List.not_mem_nil, or_false] at hm
  rcases hm with ⟨rfl, rfl⟩ | ⟨rfl, rfl⟩ | ⟨rfl, rfl⟩ <;> rfl

/-- What the assembler makes of a pseudo-instruction: its expansion within the limit, nothing beyond. -/
theorem assemble_pseudo {operands : List AsmOperand} {bytes : List Byte} (h : Loads operands bytes) :
    assemble ⟨m, operands⟩ = if withinLimit bytes.length limit then expand m bytes else none := by
  obtain ⟨hfits, hcodes⟩ := h
  have hbytes : (bytes.map BitVec.toNat).map (BitVec.ofNat 8) = bytes := by simp [Function.comp_def]
  rw [assemble, wellFormed_pseudo hm, command_pseudo hm, hfits, hcodes, hbytes, List.length_map, Bool.true_and]

end

section
variable {operands : List AsmOperand} {bytes : List Byte} (h : Loads operands bytes)
include h

theorem assemble_payLoad : assemble ⟨"PAY.LOAD", operands⟩ =
    if bytes.length ≤ 1024 then some (.payClr :: bytes.map .payPush) else none := by
  rw [assemble_pseudo (m := "PAY.LOAD") (limit := some 1024) (by decide) h]
  simp [withinLimit, expand]

theorem assemble_pktLoad : assemble ⟨"PKT.LOAD", operands⟩ =
    if bytes.length ≤ 1029 then some (.pktClr :: bytes.map .pktPush) else none := by
  rw [assemble_pseudo (m := "PKT.LOAD") (limit := some 1029) (by decide) h]
  simp [withinLimit, expand]

theorem assemble_crcOf :
    assemble ⟨"CRC.OF", operands⟩ = some (Instr.crcClr :: bytes.map Instr.crcUpd ++ [Instr.crcRd]) := by
  rw [assemble_pseudo (m := "CRC.OF") (limit := none) (by decide) h]
  simp [withinLimit, expand]

end

/-- Settles O8: numbers and a quoted string both stand for the bytes (`Loads`), and the assembler's answer depends on
the bytes alone. -/
theorem pseudoInstructionsExpand : Obligations.PseudoInstructionsExpand := by
  unfold Obligations.PseudoInstructionsExpand
  exact ⟨fun bytes => assemble_payLoad (loads_numbers bytes), fun bytes => assemble_pktLoad (loads_numbers bytes),
    fun bytes => assemble_crcOf (loads_numbers bytes), fun bytes _ => assemble_payLoad (loads_text bytes),
    fun bytes _ => assemble_pktLoad (loads_text bytes), fun bytes _ => assemble_crcOf (loads_text bytes),
    by decide, by decide, by decide⟩

end Sys2Proof.Machine
end

section
/-! ## The bytes of an encoded packet (R37, R70) -/

namespace Sys2Proof.Machine

@[simp] theorem trailer_length (crcFn : List Byte → Word) (mode : IntegrityMode) (payload : List Byte) :
    (trailer crcFn mode payload).length = tlen mode := by
  cases mode <;> rfl

section
variable {chunk : List Byte} {prof : Profile}

theorem padded_length (h : chunk.length ≤ size prof) : (padded prof chunk).length = size prof := by
  simp [padded]; omega

theorem padded_getElem?_chunk {k : Nat} (h : k < chunk.length) : (padded prof chunk)[k]? = chunk[k]? :=
  List.getElem?_append_left h

theorem padded_getElem?_fill {k : Nat} (h : chunk.length ≤ k) (hk : k < size prof) :
    (padded prof chunk)[k]? = some FILL := by
  rw [padded, List.getElem?_append_right h, List.getElem?_replicate_of_lt (by omega)]

variable (crcFn : List Byte → Word) (seq : Byte) (mode : IntegrityMode) (h : chunk.length ≤ size prof)
include h

theorem encodePacket_payload :
    ((encodePacket crcFn seq chunk prof mode).drop 3).take (size prof) = padded prof chunk := by
  simp [encodePacket, ← padded_length h]

theorem encodePacket_length : (encodePacket crcFn seq chunk prof mode).length = 3 + size prof + tlen mode := by
  simp [encodePacket, padded_length h]; omega

theorem encodePacket_getElem?_payload {k : Nat} (hk : k < size prof) :
    (encodePacket crcFn seq chunk prof mode)[3 + k]? = (padded prof chunk)[k]? := by
  rw [← encodePacket_payload crcFn seq mode h, List.getElem?_take_of_lt hk, List.getElem?_drop]

theorem encodePacket_getElem?_trailer (k : Nat) :
    (encodePacket crcFn seq chunk prof mode)[3 + size prof + k]? = (trailer crcFn mode (padded prof chunk))[k]? := by
  have hhead : ([hdr prof, seq, complement seq] ++ padded prof chunk).length = 3 + size prof := by
    simp [padded_length h]; omega
  rw [encodePacket, ← hhead, List.getElem?_append_right (Nat.le_add_right _ _), Nat.add_sub_cancel_left]

end

/-- Settles O22: the header bytes by unfolding, the payload as the padded chunk, the trailer as the bytes after it. -/
theorem packetLayout : Obligations.PacketLayout := by
  unfold Obligations.PacketLayout
  intro crcFn seq chunk prof mode h p payload
  have hpayload : payload = padded prof chunk := encodePacket_payload crcFn seq mode h
  have htrailer := encodePacket_getElem?_trailer crcFn seq mode h
  have hlength := encodePacket_length crcFn seq mode h
  refine ⟨by cases prof <;> rfl, rfl, rfl, ?_, fun k hk => ?_, fun k hk hk' => ?_, ?_, ?_⟩
  · rw [hpayload, padded_length h]; cases prof <;> rfl
  · rw [encodePacket_getElem?_payload crcFn seq mode h (by omega), padded_getElem?_chunk hk]
  · rw [encodePacket_getElem?_payload crcFn seq mode h hk', padded_getElem?_fill hk hk']; rfl
  · rintro rfl
    exact ⟨hpayload ▸ htrailer 0, hlength⟩
  · rintro rfl
    exact ⟨hpayload ▸ htrailer 0, hpayload ▸ htrailer 1, hlength⟩

end Sys2Proof.Machine
end

section
/-! ## Every command word is answered (R46) -/

namespace Sys2Proof.Machine

/-- What R46 says of an outcome: a next state that answers Ok, with 0x0000 for a command that returns nothing (`p`), or
a fault with a code 1 to 6 that leaves the registers and memories as they were. -/
def AnswersOrFaults (p : Prop) (s : State) (r : Result) : Prop :=
  ∃ t, r = .next t ∧
    ((∃ v, t.resp = some (.ok v) ∧ (p → v = 0x0000)) ∨
      ∃ c, t.resp = some (.fault c) ∧ 1 ≤ c.toNat ∧ c.toNat ≤ 6 ∧
        t.crc = s.crc ∧ t.sum = s.sum ∧ t.plen = s.plen ∧ t.klen = s.klen ∧ t.result = s.result ∧
        t.pay = s.pay ∧ t.pkt = s.pkt)

theorem faultCode_range (f : BlockFault) : 1 ≤ (faultCode f).toNat ∧ (faultCode f).toNat ≤ 6 := by
  cases f <;> decide

section
variable {p : Prop} {s : State}

theorem answer_answersOrFaults {v : Word} {t : State} (h : p → v = 0x0000) : AnswersOrFaults p s (answer v t) :=
  ⟨respond (.ok v) t, rfl, .inl ⟨v, rfl, h⟩⟩

theorem raise_answersOrFaults (f : BlockFault) : AnswersOrFaults p s (raise f s) :=
  have ⟨hlow, hhigh⟩ := faultCode_range f
  ⟨takeFault f s, rfl, .inr ⟨faultCode f, rfl, hlow, hhigh, rfl, rfl, rfl, rfl, rfl, rfl, rfl⟩⟩

theorem unlessHalted_answersOrFaults {c : Result} (h : AnswersOrFaults p s c) :
    AnswersOrFaults p s (unlessHalted s c) := by
  cases hh : halted s with
  | false => rwa [unlessHalted_running hh]
  | true =>
    rw [unlessHalted_halted hh]
    exact ⟨refuseHalted s, rfl, .inr ⟨6, rfl, by decide, by decide, rfl, rfl, rfl, rfl, rfl, rfl, rfl⟩⟩

/-! The five commands with a check of their own return a value, so nothing is asked of it (`¬p`). -/

section
variable (hp : ¬p)
include hp

theorem execPayPush_answersOrFaults (b : Byte) (hs : PayFilled s) : AnswersOrFaults p s (execPayPush b s) := by
  apply unlessHalted_answersOrFaults
  obtain ⟨hle, -⟩ := hs
  split
  case isTrue => exact raise_answersOrFaults _
  case isFalse hne =>
    rw [appendByte_below (by omega)]
    exact answer_answersOrFaults (absurd · hp)

theorem execPktPush_answersOrFaults (b : Byte) (hs : PktFilled s) : AnswersOrFaults p s (execPktPush b s) := by
  apply unlessHalted_answersOrFaults
  obtain ⟨hle, -⟩ := hs
  split
  case isTrue => exact raise_answersOrFaults _
  case isFalse hne =>
    rw [appendByte_below (by omega)]
    exact answer_answersOrFaults (absurd · hp)

theorem execPktRd_answersOrFaults (i : Index) (hs : PktFilled s) : AnswersOrFaults p s (execPktRd i s) := by
  apply unlessHalted_answersOrFaults
  obtain ⟨-, hfilled⟩ := hs
  split
  case isTrue => exact raise_answersOrFaults _
  case isFalse hlt =>
    have hcell : i.toNat < (s.pkt.map Prod.snd).length := by
      rw [List.length_map, Memory.filled_length hfilled]; omega
    rw [Memory.filled_read hfilled, List.getElem?_eq_getElem hcell]
    exact answer_answersOrFaults (absurd · hp)

theorem execEnc_answersOrFaults (seq : Byte) (prof : Profile) (mode : IntegrityMode) (hs : PayFilled s) :
    AnswersOrFaults p s (execEnc seq prof mode s) := by
  apply unlessHalted_answersOrFaults
  obtain ⟨-, hfilled⟩ := hs
  split
  case isTrue => exact raise_answersOrFaults _
  case isFalse =>
    rw [Memory.filled_readRange hfilled]
    exact answer_answersOrFaults (absurd · hp)

theorem execVal_answersOrFaults (expseq : Byte) (mode : IntegrityMode) (hs : PktFilled s) :
    AnswersOrFaults p s (execVal expseq mode s) := by
  apply unlessHalted_answersOrFaults
  obtain ⟨-, hfilled⟩ := hs
  rw [Memory.filled_readRange hfilled]
  exact answer_answersOrFaults (absurd · hp)

end

/-- The commands that return nothing (R46) are CRC.CLR, SUM.CLR, PAY.CLR, PKT.CLR and RST. -/
theorem exec_answersOrFaults (i : Instr) (hs : s.Inv) :
    AnswersOrFaults (i ∈ [.crcClr, .sumClr, .payClr, .pktClr, .rst]) s (exec i s) := by
  obtain ⟨hpay, hpkt, -, -⟩ := hs
  cases i with
  | payPush b => exact execPayPush_answersOrFaults (by simp) b hpay
  | pktPush b => exact execPktPush_answersOrFaults (by simp) b hpkt
  | pktRd n => exact execPktRd_answersOrFaults (by simp) n hpkt
  | enc seq prof mode => exact execEnc_answersOrFaults (by simp) seq prof mode hpay
  | val expseq mode => exact execVal_answersOrFaults (by simp) expseq mode hpkt
  | rst => exact answer_answersOrFaults fun _ => rfl
  | crcClr | sumClr | payClr | pktClr => exact unlessHalted_answersOrFaults (answer_answersOrFaults fun _ => rfl)
  | stRd => exact answer_answersOrFaults (by simp)
  | _ => exact unlessHalted_answersOrFaults (answer_answersOrFaults (by simp))

theorem perform_answersOrFaults (w : Word) (hs : s.Inv) :
    AnswersOrFaults (w ∈ [0x1000#16, 0x4000#16, 0x7000#16, 0x9000#16, 0xF000#16]) s (perform w s) := by
  unfold perform
  split
  case h_1 i hi =>
    have hwords : [0x1000#16, 0x4000#16, 0x7000#16, 0x9000#16, 0xF000#16] =
        [.crcClr, .sumClr, .payClr, .pktClr, .rst].map encode := rfl
    rw [← encode_of_decode hi, hwords, List.mem_map_of_injective encode_injective]
    exact exec_answersOrFaults i hs
  case h_2 => exact unlessHalted_answersOrFaults (raise_answersOrFaults .illegal)

end

/-- Settles O53: the invariant gives every cell that ENC, VAL and PKT.RD read a byte and every push a cell, so each
command of `exec` answers or faults, and so does an illegal word. -/
theorem everyWordHasOneResponse : Obligations.EveryWordHasOneResponse :=
  fun _ w hs => perform_answersOrFaults w hs

end Sys2Proof.Machine
end

section
/-! ## The words of the commands as numbers (R47) -/

namespace Sys2Proof.Machine

theorem decode_eq_ok_iff_eq {w x : Word} {i : Instr} (h : encode i = x) : decode w = .ok i ↔ w = x := by
  rw [decode_eq_ok_iff, h, eq_comm]

theorem zext16_byte (b : Byte) : zext16 b = 0#8 ++ b := BitVec.setWidth_eq_append (by decide)

theorem byteArg_eq_setWidth (b : Byte) : byteArg b = b.setWidth 12 := (BitVec.setWidth_eq_append (by decide)).symm

theorem commandWord_eq_or (o : BitVec 4) (arg : BitVec 12) :
    commandWord o arg = commandWord o 0 ||| arg.setWidth 16 := by
  have harg : arg.setWidth 16 = 0#4 ++ arg := BitVec.setWidth_eq_append (by decide)
  rw [harg, commandWord, commandWord, BitVec.or_append, BitVec.or_zero, BitVec.ofNat_eq_ofNat, BitVec.zero_or]

/-- The word of a byte command is its pattern in R47 OR the byte. -/
theorem commandWord_byteArg (o : BitVec 4) (b : Byte) :
    commandWord o (byteArg b) = commandWord o 0 ||| b.setWidth 16 := by
  rw [commandWord_eq_or, byteArg_eq_setWidth, BitVec.setWidth_setWidth (by decide)]

theorem encode_crcUpd (b : Byte) : encode (.crcUpd b) = 0x2000 ||| b.setWidth 16 := commandWord_byteArg 0x2 b

theorem encode_sumUpd (b : Byte) : encode (.sumUpd b) = 0x5000 ||| b.setWidth 16 := commandWord_byteArg 0x5 b

theorem perform_encode (i : Instr) (s : State) : perform (encode i) s = exec i s := by
  rw [perform, decode_encode]

end Sys2Proof.Machine
end

section
/-! ## A run of updates of one register folds the bytes (R59, R62) -/

namespace Sys2Proof.Machine

section
/-! `put a` is the state whose register holds `a`; the words `update b` and `clear` write that register only. -/

variable {α : Type} {put : α → State} {f : α → Byte → α} {update : Byte → Word}
  (hupdate : ∀ a r b, ∃ r', perform (update b) (respond r (put a)) = .next (respond r' (put (f a b))))
include hupdate

theorem runWords_updates (xs : List Byte) (a : α) (r : Response) :
    ∃ r' rs, runWords (xs.map update) (respond r (put a)) = some (respond r' (put (xs.foldl f a)), rs) := by
  induction xs generalizing a r with
  | nil => exact ⟨r, [], rfl⟩
  | cons b xs ih =>
    obtain ⟨r₁, hfirst⟩ := hupdate a r b
    obtain ⟨r', rs, hrest⟩ := ih (f a b) r₁
    exact ⟨r', r₁ :: rs, by simp [runWords, hfirst, hrest]⟩

theorem runWords_clear_updates {s : State} {clear : Word} {a : α} {r : Response}
    (hclear : perform clear s = .next (respond r (put a))) (xs : List Byte) :
    ∃ r' rs, runWords (clear :: xs.map update) s = some (respond r' (put (xs.foldl f a)), rs) := by
  obtain ⟨r', rs, hrest⟩ := runWords_updates hupdate xs a r
  exact ⟨r', r :: rs, by simp [runWords, hclear, hrest]⟩

end

end Sys2Proof.Machine
end

section
/-! ## The checksum is the sum in the ring of bytes (R52) -/

namespace Sys2Proof.Machine

theorem sum8_cons (b : Byte) (xs : List Byte) : sum8 (b :: xs) = b + sum8 xs := by
  rw [sum8, List.map_cons, List.sum_cons, BitVec.ofNat_add, BitVec.ofNat_toNat, BitVec.setWidth_eq, sum8]

theorem sum8_eq_sum (xs : List Byte) : sum8 xs = xs.sum := by
  induction xs with
  | nil => rfl
  | cons b xs ih => rw [sum8_cons, ih, List.sum_cons]

theorem sum8_eq_foldl (xs : List Byte) : sum8 xs = xs.foldl (· + ·) 0 := by
  rw [sum8_eq_sum, List.sum_eq_foldl]

/-- Settles O33: by its definition `sum8` reduces once at the end, and addition in the ring of bytes reduces each
time. -/
theorem sumIsReducedAtTheEndOrEachTime : Obligations.SumIsReducedAtTheEndOrEachTime :=
  ⟨rfl, fun _ => BitVec.toNat_ofNat _ _, sum8_eq_foldl⟩

end Sys2Proof.Machine
end

section
/-! ## The streaming commands (R58 to R63) -/

namespace Sys2Proof.Machine

section
variable {s : State} (h : halted s = false)
include h

/-- A running block performs a command that has no check of its own (R111). -/
theorem unlessHalted_answer {t : State} {v : Word} :
    unlessHalted s (answer v t) = .next { t with resp := some (.ok v) } :=
  unlessHalted_running h _

theorem exec_crcClr : exec .crcClr s = .next { s with crc := 0x0000, resp := some (.ok 0x0000) } :=
  unlessHalted_answer h

theorem exec_crcUpd (b : Byte) :
    exec (.crcUpd b) s = .next { s with crc := crcStep s.crc b, resp := some (.ok (crcStep s.crc b)) } :=
  unlessHalted_answer h

theorem exec_sumClr : exec .sumClr s = .next { s with sum := 0x00, resp := some (.ok 0x0000) } :=
  unlessHalted_answer h

theorem exec_sumUpd (b : Byte) :
    exec (.sumUpd b) s = .next { s with sum := s.sum + b, resp := some (.ok (zext16 (s.sum + b))) } :=
  unlessHalted_answer h

/-- The corner case of R59. -/
theorem runWords_crcClr_crcUpd (xs : List Byte) :
    ∃ r rs, runWords (0x1000 :: xs.map fun b => 0x2000 ||| b.setWidth 16) s =
      some ({ s with crc := crc16 xs, resp := some r }, rs) := by
  refine runWords_clear_updates (put := fun c => { s with crc := c }) (fun c r b => ⟨.ok (crcStep c b), ?_⟩)
    ((perform_encode .crcClr s).trans (exec_crcClr h)) xs
  rw [← encode_crcUpd, perform_encode]
  exact exec_crcUpd (s := respond r { s with crc := c }) h b

/-- The corner case of R62. -/
theorem runWords_sumClr_sumUpd (xs : List Byte) :
    ∃ r rs, runWords (0x4000 :: xs.map fun b => 0x5000 ||| b.setWidth 16) s =
      some ({ s with sum := sum8 xs, resp := some r }, rs) := by
  rw [sum8_eq_foldl]
  refine runWords_clear_updates (put := fun v => { s with sum := v }) (a := 0) (fun v r b => ⟨.ok (zext16 (v + b)), ?_⟩)
    ((perform_encode .sumClr s).trans (exec_sumClr h)) xs
  rw [← encode_sumUpd, perform_encode]
  exact exec_sumUpd (s := respond r { s with sum := v }) h b

end

/-- Settles O10: CRC.CLR has one word, and a running block performs it. -/
theorem crcClrClearsCrc : Obligations.CrcClrClearsCrc :=
  ⟨fun _ => decode_eq_ok_iff_eq rfl, fun _ h => exec_crcClr h⟩

/-- Settles O11: CRC.UPD is one `crcStep`, and the run from CRC.CLR on is the fold of them that `crc16` is. -/
theorem crcUpdFeedsOneByte : Obligations.CrcUpdFeedsOneByte := by
  unfold Obligations.CrcUpdFeedsOneByte
  exact ⟨fun _ b => decode_eq_ok_iff_eq (encode_crcUpd b), fun _ b h => exec_crcUpd h b,
    fun _ xs h => runWords_crcClr_crcUpd h xs, by decide, by decide⟩

/-- Settles O12: CRC.RD has one word, and a running block answers CRC from the state as it stands. -/
theorem crcRdAnswersCrc : Obligations.CrcRdAnswersCrc :=
  ⟨fun _ => decode_eq_ok_iff_eq rfl, fun _ h => unlessHalted_answer h⟩

/-- Settles O13: SUM.CLR has one word, and a running block performs it. -/
theorem sumClrClearsSum : Obligations.SumClrClearsSum :=
  ⟨fun _ => decode_eq_ok_iff_eq rfl, fun _ h => exec_sumClr h⟩

/-- Settles O14: SUM.UPD is one addition mod 256, and the run from SUM.CLR on is the fold of them, reduced each time. -/
theorem sumUpdAddsOneByte : Obligations.SumUpdAddsOneByte := by
  unfold Obligations.SumUpdAddsOneByte
  exact ⟨fun _ b => decode_eq_ok_iff_eq (encode_sumUpd b),
    fun s b h => ⟨s.sum + b, BitVec.toNat_add s.sum b, exec_sumUpd h b⟩, fun _ xs h => runWords_sumClr_sumUpd h xs⟩

/-- Settles O15: SUM.RD has one word, and the answer is SUM with eight zeros in front. -/
theorem sumRdAnswersSum : Obligations.SumRdAnswersSum := by
  unfold Obligations.SumRdAnswersSum
  refine ⟨fun _ => decode_eq_ok_iff_eq rfl, fun s h => ⟨zext16 s.sum, ?_, ?_, unlessHalted_answer h⟩⟩
  · rw [zext16_byte]; exact BitVec.extractLsb'_append_eq_right
  · rw [zext16_byte]; exact BitVec.extractLsb'_append_eq_left

end Sys2Proof.Machine
end

section
/-! ## The buffer commands (R65 to R69) -/

namespace Sys2Proof.Machine

theorem encode_payPush (b : Byte) : encode (.payPush b) = 0x8000 ||| b.setWidth 16 := commandWord_byteArg 0x8 b

theorem encode_pktPush (b : Byte) : encode (.pktPush b) = 0xA000 ||| b.setWidth 16 := commandWord_byteArg 0xA b

theorem indexArg_eq_setWidth (n : Index) : indexArg n = n.setWidth 12 := (BitVec.setWidth_eq_append (by decide)).symm

theorem encode_pktRd (n : Index) : encode (.pktRd n) = 0xB000 ||| n.setWidth 16 := by
  rw [encode, commandWord_eq_or, indexArg_eq_setWidth, BitVec.setWidth_setWidth (by decide)]; rfl

/-- A length register below its buffer's capacity counts one more byte without wrapping: both capacities fit its 11
bits (R16, R17). -/
theorem toNat_length_succ {n : BitVec 11} {cap : Nat} (h : n.toNat < cap) (hcap : cap ≤ 2047) :
    (n + 1).toNat = n.toNat + 1 :=
  BitVec.toNat_add_of_lt (show n.toNat + 1 < 2 ^ 11 by omega)

/-- Every cell below the length of a filled memory holds a byte (R20). -/
theorem Memory.filled_read_below {m : Memory} {n a : Nat} (h : m.filled n) (ha : a < n) : ∃ b, m.read a = some b := by
  have hcell : a < (m.map Prod.snd).length := by rwa [List.length_map, Memory.filled_length h]
  exact ⟨_, (Memory.filled_read h a).trans (List.getElem?_eq_getElem hcell)⟩

section
variable {s : State} (h : halted s = false)
include h

theorem exec_payClr : exec .payClr s = .next { s with plen := 0, pay := [], resp := some (.ok 0x0000) } :=
  unlessHalted_answer h

theorem exec_pktClr : exec .pktClr s = .next { s with klen := 0, pkt := [], resp := some (.ok 0x0000) } :=
  unlessHalted_answer h

theorem exec_payPush_full (b : Byte) (hfull : s.plen.toNat = PAY_CAP) :
    exec (.payPush b) s = .next (takeFault .payOverflow s) := by
  rw [exec, execPayPush, unlessHalted_running h, if_pos hfull, raise]

theorem exec_payPush_below (b : Byte) (hbelow : s.plen.toNat < PAY_CAP) :
    exec (.payPush b) s = .next { s with
      pay := s.pay.write s.plen.toNat b, plen := s.plen + 1, resp := some (.ok (zext16 (s.plen + 1))) } := by
  rw [exec, execPayPush, unlessHalted_running h, if_neg hbelow.ne, appendByte_below hbelow]; rfl

theorem exec_pktPush_full (b : Byte) (hfull : s.klen.toNat = PKT_CAP) :
    exec (.pktPush b) s = .next (takeFault .pktOverflow s) := by
  rw [exec, execPktPush, unlessHalted_running h, if_pos hfull, raise]

theorem exec_pktPush_below (b : Byte) (hbelow : s.klen.toNat < PKT_CAP) :
    exec (.pktPush b) s = .next { s with
      pkt := s.pkt.write s.klen.toNat b, klen := s.klen + 1, resp := some (.ok (zext16 (s.klen + 1))) } := by
  rw [exec, execPktPush, unlessHalted_running h, if_neg hbelow.ne, appendByte_below hbelow]; rfl

theorem exec_pktRd_beyond {n : Index} (hbeyond : s.klen.toNat ≤ n.toNat) :
    exec (.pktRd n) s = .next (takeFault .index s) := by
  rw [exec, execPktRd, unlessHalted_running h, if_pos hbeyond, raise]

theorem exec_pktRd_valid {n : Index} {b : Byte} (hvalid : n.toNat < s.klen.toNat) (hread : s.pkt.read n.toNat = some b) :
    exec (.pktRd n) s = .next { s with resp := some (.ok (zext16 b)) } := by
  rw [exec, execPktRd, unlessHalted_running h, if_neg hvalid.not_ge, hread]; rfl

end

/-- Settles O16: PAY.CLR has one word, and no cell of the empty memory it leaves holds a value. -/
theorem payClrEmptiesPay : Obligations.PayClrEmptiesPay :=
  ⟨fun _ => decode_eq_ok_iff_eq rfl, fun _ h => ⟨[], exec_payClr h, Memory.read_nil⟩⟩

/-- Settles O18: PKT.CLR has one word, and no cell of the empty memory it leaves holds a value. -/
theorem pktClrEmptiesPkt : Obligations.PktClrEmptiesPkt :=
  ⟨fun _ => decode_eq_ok_iff_eq rfl, fun _ h => ⟨[], exec_pktClr h, Memory.read_nil⟩⟩

/-- Settles O17: at the capacity the fault entry of R112, below it one write at PLEN. -/
theorem payPushAppendsOrFaults : Obligations.PayPushAppendsOrFaults := by
  unfold Obligations.PayPushAppendsOrFaults
  exact ⟨fun _ b => decode_eq_ok_iff_eq (encode_payPush b), fun _ b h hfull => exec_payPush_full h b hfull,
    fun s b h hbelow => ⟨s.pay.write s.plen.toNat b, s.plen + 1, toNat_length_succ hbelow (by decide),
      exec_payPush_below h b hbelow, Memory.read_write_same s.pay _ b, fun _ => Memory.read_write_other s.pay b⟩⟩

/-- Settles O19: at the capacity the fault entry of R112, below it one write at KLEN. -/
theorem pktPushAppendsOrFaults : Obligations.PktPushAppendsOrFaults := by
  unfold Obligations.PktPushAppendsOrFaults
  exact ⟨fun _ b => decode_eq_ok_iff_eq (encode_pktPush b), fun _ b h hfull => exec_pktPush_full h b hfull,
    fun s b h hbelow => ⟨s.pkt.write s.klen.toNat b, s.klen + 1, toNat_length_succ hbelow (by decide),
      exec_pktPush_below h b hbelow, Memory.read_write_same s.pkt _ b, fun _ => Memory.read_write_other s.pkt b⟩⟩

/-- Settles O20: at or above KLEN the fault entry of R112; below it the invariant gives the cell a byte. -/
theorem pktRdReadsOrFaults : Obligations.PktRdReadsOrFaults := by
  unfold Obligations.PktRdReadsOrFaults
  refine ⟨fun _ n => decode_eq_ok_iff_eq (encode_pktRd n), fun _ _ h hbeyond => exec_pktRd_beyond h hbeyond, ?_⟩
  rintro s n h ⟨-, hfilled⟩ hvalid
  obtain ⟨b, hread⟩ := Memory.filled_read_below hfilled hvalid
  exact ⟨b, hread, exec_pktRd_valid h hvalid hread⟩

end Sys2Proof.Machine
end

section
/-! ## ENC (R72) -/

namespace Sys2Proof.Machine

/-- The word of a session command is its pattern in R47 OR its operands in their places (R48). -/
theorem commandWord_sessionArg (o : BitVec 4) (mode prof : BitVec 1) (b : Byte) :
    commandWord o (sessionArg mode prof b) =
      commandWord o 0 ||| mode.setWidth 16 <<< 9 ||| prof.setWidth 16 <<< 8 ||| b.setWidth 16 := by
  rw [commandWord_eq_or, sessionArg, BitVec.setWidth_append_append_append_eq_shiftLeft_setWidth_or,
    BitVec.setWidth_zero, BitVec.zero_shiftLeft, BitVec.zero_or, ← BitVec.or_assoc, ← BitVec.or_assoc]

theorem encode_enc (seq : Byte) (prof : Profile) (mode : IntegrityMode) :
    encode (.enc seq prof mode) =
      0xC000 ||| (modeBit mode).setWidth 16 <<< 9 ||| (profBit prof).setWidth 16 <<< 8 ||| seq.setWidth 16 :=
  commandWord_sessionArg 0xC (modeBit mode) (profBit prof) seq

theorem storePacket_of_length {packet : List Byte} {L : Nat} (hlength : packet.length = L) (s : State) :
    storePacket packet s = .next { s with
      pkt := Memory.cellsFrom 0 packet, klen := BitVec.ofNat 11 L, resp := some (.ok (BitVec.ofNat 16 L)) } := by
  rw [storePacket, hlength]; rfl

section
variable {s : State} (h : halted s = false) (seq : Byte) {prof : Profile} (mode : IntegrityMode)
include h

theorem exec_enc_long (hlong : size prof < s.plen.toNat) :
    exec (.enc seq prof mode) s = .next (takeFault .payLength s) := by
  rw [exec, execEnc, unlessHalted_running h, if_pos hlong, raise]

theorem exec_enc_fits (hfits : s.plen.toNat ≤ size prof) {chunk : List Byte}
    (hread : s.pay.readRange 0 s.plen.toNat = some chunk) :
    exec (.enc seq prof mode) s = storePacket (encodePacket crc16 seq chunk prof mode) s := by
  rw [exec, execEnc, unlessHalted_running h, if_neg hfits.not_gt, hread, hardware]

end

/-- Settles O21: above the profile's size the fault entry of R112; up to it the invariant gives ENC the bytes of PAY's
chunk to read, and PKT holds exactly the cells of the packet. -/
theorem encStoresThePacketOrFaults : Obligations.EncStoresThePacketOrFaults := by
  unfold Obligations.EncStoresThePacketOrFaults
  refine ⟨fun _ seq prof mode => decode_eq_ok_iff_eq (encode_enc seq prof mode),
    fun _ seq _ mode h hlong => exec_enc_long h seq mode hlong, ?_⟩
  rintro s seq prof mode h ⟨-, hfilled⟩ hfits
  obtain ⟨chunk, hread⟩ : ∃ chunk, s.pay.readRange 0 s.plen.toNat = some chunk :=
    ⟨_, Memory.filled_readRange hfilled⟩
  obtain ⟨hlength, hcells⟩ := Memory.readRange_some hread
  have hpacket := encodePacket_length crc16 seq mode (hlength.trans_le hfits)
  exact ⟨chunk, Memory.cellsFrom 0 (encodePacket crc16 seq chunk prof mode), 3 + size prof + tlen mode, hlength,
    fun a ha => by simpa using hcells a ha, rfl, fun a => by simp [Memory.read_cellsFrom], hpacket,
    (exec_enc_fits h seq mode hfits hread).trans (storePacket_of_length hpacket s)⟩

end Sys2Proof.Machine
end

section
/-! ## The checks of the validator in their order (R74, R80) -/

namespace Sys2Proof.Machine

theorem dataHeader_hdr (prof : Profile) : dataHeader (hdr prof) = some prof := by cases prof <;> rfl

theorem dataHeader_cases (b : Byte) : (∃ prof, b = hdr prof) ∨ (b ≠ 0x01 ∧ b ≠ 0x02 ∧ dataHeader b = none) := by
  by_cases h128 : b = HDR_128
  · exact .inl ⟨.p128, h128⟩
  by_cases h1K : b = HDR_1K
  · exact .inl ⟨.p1K, h1K⟩
  exact .inr ⟨h128, h1K, by rw [dataHeader, if_neg h128, if_neg h1K]⟩

/-- Below the length `byteAt` is the byte, where its default value does not enter. -/
theorem getElem?_eq_byteAt {raw : List Byte} {i : Nat} (h : i < raw.length) : raw[i]? = some (byteAt raw i) := by
  rw [byteAt, List.getD_eq_getElem?_getD, List.getElem?_eq_getElem h, Option.getD_some]

/-- Two bytes make a word exactly when they are its halves (R28). -/
theorem beWord_eq_iff {high low : Byte} {v : Word} :
    beWord high low = v ↔ high = v.extractLsb' 8 8 ∧ low = v.extractLsb' 0 8 := by
  constructor
  · rintro rfl
    exact ⟨BitVec.extractLsb'_append_eq_left.symm, BitVec.extractLsb'_append_eq_right.symm⟩
  · rintro ⟨rfl, rfl⟩
    exact BitVec.extractLsb'_append_extractLsb'

section
variable {crcFn : List Byte → Word} {prof : Profile} {raw : List Byte}

theorem trailerVerifies_sum_iff (h : raw.length = packetLength prof .sum) :
    trailerVerifies crcFn prof .sum raw = true ↔ raw[3 + size prof]? = some (sum8 (payloadOf prof raw)) := by
  rw [packetLength, tlen] at h
  rw [getElem?_eq_byteAt (by omega)]
  simp [trailerVerifies]

theorem trailerVerifies_crc_iff (h : raw.length = packetLength prof .crc) :
    trailerVerifies crcFn prof .crc raw = true ↔
      raw[3 + size prof]? = some ((crcFn (payloadOf prof raw)).extractLsb' 8 8) ∧
      raw[3 + size prof + 1]? = some ((crcFn (payloadOf prof raw)).extractLsb' 0 8) := by
  rw [packetLength, tlen] at h
  rw [getElem?_eq_byteAt (i := 3 + size prof) (by omega), getElem?_eq_byteAt (by omega)]
  simp [trailerVerifies, beWord_eq_iff]

variable (crcFn) (expseq : Byte) (mode : IntegrityMode)

theorem validate_dataHeader (h : raw[0]? = some (hdr prof)) :
    validate crcFn raw expseq mode = validateBody crcFn prof raw expseq mode := by
  obtain ⟨rest, rfl⟩ : ∃ rest, raw = hdr prof :: rest := by
    cases raw with
    | nil => cases h
    | cons b rest => exact ⟨rest, by simpa using h⟩
  rw [validate, dataHeader_hdr]

/-- The checks after the header, with the bytes they look at read from the packet itself: within the right length each
of these bytes is there. -/
theorem validateBody_eq : validateBody crcFn prof raw expseq mode =
    if raw.length ≠ packetLength prof mode then ⟨.rejected, .length, profBit prof⟩
    else if raw[2]? ≠ raw[1]?.map complement then ⟨.rejected, .complement, profBit prof⟩
    else if mode = .sum ∧ raw[3 + size prof]? ≠ some (sum8 (payloadOf prof raw)) then
      ⟨.rejected, .trailer, profBit prof⟩
    else if mode = .crc ∧ ¬ (raw[3 + size prof]? = some ((crcFn (payloadOf prof raw)).extractLsb' 8 8) ∧
        raw[3 + size prof + 1]? = some ((crcFn (payloadOf prof raw)).extractLsb' 0 8)) then
      ⟨.rejected, .trailer, profBit prof⟩
    else if raw[1]? = some expseq then ⟨.accepted, .noReason, profBit prof⟩
    else if raw[1]? = some (expseq - 1) then ⟨.duplicateOfPrevious, .noReason, profBit prof⟩
    else ⟨.rejected, .sequence, profBit prof⟩ := by
  by_cases hlen : raw.length = packetLength prof mode
  · have hthree : 3 ≤ raw.length := by rw [hlen, packetLength]; omega
    rw [getElem?_eq_byteAt (i := 1) (by omega), getElem?_eq_byteAt (i := 2) (by omega)]
    cases mode with
    | sum => simp [validateBody, sequenceVerdict, hlen, trailerVerifies_sum_iff hlen]
    | crc => simp [validateBody, sequenceVerdict, hlen, trailerVerifies_crc_iff hlen, -not_and]
  · rw [validateBody, if_pos hlen, if_pos hlen]

end

/-- Settles O25: without a data header by the first two checks, with one by `validateBody_eq` at its profile. -/
theorem validateChecksInOrder : Obligations.ValidateChecksInOrder := by
  unfold Obligations.ValidateChecksInOrder
  intro crcFn raw expseq mode
  cases raw with
  | nil => rfl
  | cons b rest =>
    rcases dataHeader_cases b with ⟨prof, rfl⟩ | ⟨h128, h1K, hnone⟩
    · rw [validate_dataHeader crcFn expseq mode rfl, validateBody_eq]
      cases prof <;> rfl
    · have hheader : (b :: rest)[0]? ≠ some 0x01 ∧ (b :: rest)[0]? ≠ some 0x02 :=
        ⟨fun h => h128 (Option.some.inj h), fun h => h1K (Option.some.inj h)⟩
      intro rprof N payload
      rw [validate, hnone, if_neg (List.length_eq_zero_iff.not.mpr (List.cons_ne_nil b rest)), if_pos hheader]

end Sys2Proof.Machine
end

section
/-! ## VAL (R83) -/

namespace Sys2Proof.Machine

theorem encode_val (expseq : Byte) (mode : IntegrityMode) :
    encode (.val expseq mode) = 0xD000 ||| (modeBit mode).setWidth 16 <<< 9 ||| expseq.setWidth 16 := by
  have hprof : (0 : BitVec 1).setWidth 16 <<< 8 = 0#16 := by decide
  rw [encode, commandWord_sessionArg, hprof, BitVec.or_zero]
  rfl

section
variable (rprof : BitVec 1) (reason : BitVec 3) (verdict : BitVec 2)

@[simp] theorem resultVerdict_packResult : resultVerdict (packResult rprof reason verdict) = verdict := by
  revert rprof reason verdict; decide

@[simp] theorem resultReason_packResult : resultReason (packResult rprof reason verdict) = reason := by
  revert rprof reason verdict; decide

@[simp] theorem resultRprof_packResult : resultRprof (packResult rprof reason verdict) = rprof := by
  revert rprof reason verdict; decide

theorem reserved_packResult : (packResult rprof reason verdict).extractLsb' 6 10 = 0 := by
  revert rprof reason verdict; decide

end

/-- The thirteen outcomes of a validation, in the order in which R83 lists their words. -/
def validations : List Validation :=
  [⟨.accepted, .noReason, 0⟩, ⟨.accepted, .noReason, 1⟩,
    ⟨.duplicateOfPrevious, .noReason, 0⟩, ⟨.duplicateOfPrevious, .noReason, 1⟩,
    ⟨.rejected, .length, 0⟩, ⟨.rejected, .length, 1⟩, ⟨.rejected, .header, 0⟩,
    ⟨.rejected, .complement, 0⟩, ⟨.rejected, .complement, 1⟩, ⟨.rejected, .trailer, 0⟩, ⟨.rejected, .trailer, 1⟩,
    ⟨.rejected, .sequence, 0⟩, ⟨.rejected, .sequence, 1⟩]

theorem map_resultWord_validations : validations.map resultWord =
    [0x0001, 0x0021, 0x0002, 0x0022, 0x0007, 0x0027, 0x000B, 0x000F, 0x002F, 0x0013, 0x0033, 0x0017, 0x0037] := by
  decide

theorem sequenceVerdict_mem (seq expseq : Byte) (prof : Profile) :
    sequenceVerdict seq expseq (profBit prof) ∈ validations := by
  unfold sequenceVerdict
  split_ifs <;> cases prof <;> decide

theorem validateBody_mem (crcFn : List Byte → Word) (prof : Profile) (raw : List Byte) (expseq : Byte)
    (mode : IntegrityMode) : validateBody crcFn prof raw expseq mode ∈ validations := by
  unfold validateBody
  split_ifs
  · cases prof <;> decide
  · cases prof <;> decide
  · exact sequenceVerdict_mem _ expseq prof
  · cases prof <;> decide

theorem validate_mem (crcFn : List Byte → Word) (raw : List Byte) (expseq : Byte) (mode : IntegrityMode) :
    validate crcFn raw expseq mode ∈ validations := by
  unfold validate
  split
  · decide
  · split
    · decide
    · exact validateBody_mem crcFn _ _ expseq mode

theorem exec_val {s : State} (h : halted s = false) {raw : List Byte}
    (hread : s.pkt.readRange 0 s.klen.toNat = some raw) (expseq : Byte) (mode : IntegrityMode) :
    exec (.val expseq mode) s = storeResult (validate crc16 raw expseq mode) s := by
  rw [exec, execVal, unlessHalted_running h, hread, hardware]

/-- Settles O29: the invariant gives VAL the bytes of PKT to read, and the fields of RESULT are the codes of their
validation, one of thirteen. -/
theorem valWritesTheVerdict : Obligations.ValWritesTheVerdict := by
  unfold Obligations.ValWritesTheVerdict
  refine ⟨fun _ expseq mode => decode_eq_ok_iff_eq (encode_val expseq mode), ?_⟩
  rintro s expseq mode h ⟨-, hfilled⟩
  obtain ⟨raw, hread⟩ : ∃ raw, s.pkt.readRange 0 s.klen.toNat = some raw := ⟨_, Memory.filled_readRange hfilled⟩
  obtain ⟨hlength, hcells⟩ := Memory.readRange_some hread
  refine ⟨raw, resultWord (validate crc16 raw expseq mode), hlength, fun a ha => by simpa using hcells a ha,
    resultVerdict_packResult _ _ _, resultReason_packResult _ _ _, resultRprof_packResult _ _ _,
    reserved_packResult _ _ _, ?_, exec_val h hread expseq mode⟩
  rw [← map_resultWord_validations]
  exact List.mem_map_of_mem (validate_mem crc16 raw expseq mode)

end Sys2Proof.Machine
end

section
/-! ## HDR.CLS (R84, R85) -/

namespace Sys2Proof.Machine

theorem encode_hdrCls (b : Byte) : encode (.hdrCls b) = 0xE000 ||| b.setWidth 16 := commandWord_byteArg 0xE b

theorem ofNat_classify (b : Byte) : BitVec.ofNat 16 (classify b) =
    if b = 0x01 then 1 else if b = 0x02 then 2 else if b = 0x04 then 3 else if b = 0x18 then 4 else 0 := by
  simp only [classify, apply_ite (BitVec.ofNat 16)]
  rfl

/-- Settles O31: HDR.CLS answers the class from the byte alone, in the state as it stands. -/
theorem hdrClsAnswersTheClass : Obligations.HdrClsAnswersTheClass := by
  unfold Obligations.HdrClsAnswersTheClass
  refine ⟨fun _ b => decode_eq_ok_iff_eq (encode_hdrCls b), fun s b h => ?_⟩
  rw [← ofNat_classify]
  exact unlessHalted_answer h

end Sys2Proof.Machine
end

section
/-! ## What holds of the next state of an outcome, and at the end of a run (R111, R124) -/

namespace Sys2Proof.Machine

/-- `P` holds of the next state, where the outcome has one. -/
def NextSatisfies (P : State → Prop) (r : Result) : Prop := ∀ t, r = .next t → P t

section
variable {P : State → Prop} {s t : State} {c : Result}

theorem fault_nextSatisfies (f : Fault) : NextSatisfies P (.fault f) := nofun

theorem answer_nextSatisfies {v : Word} (h : P (respond (.ok v) t)) : NextSatisfies P (answer v t) := by
  rintro _ ⟨⟩; exact h

theorem raise_nextSatisfies {f : BlockFault} (h : P (takeFault f s)) : NextSatisfies P (raise f s) := by
  rintro _ ⟨⟩; exact h

theorem unlessHalted_nextSatisfies (hrefuse : P (refuseHalted s)) (h : NextSatisfies P c) :
    NextSatisfies P (unlessHalted s c) := by
  intro t ht
  rcases unlessHalted_next_cases ht with ⟨-, rfl⟩ | ⟨-, hc⟩
  · exact hrefuse
  · exact h t hc

theorem perform_of_decode {w : Word} {i : Instr} (h : decode w = .ok i) : perform w s = exec i s := by
  rw [perform, h]

theorem perform_of_illegal {w : Word} {e : IllegalWord} (h : decode w = .error e) : perform w s = illegalWord s := by
  rw [perform, h]

/-- What every word of a run keeps holds at its end if it holds at its start. -/
theorem runWords_keeps {ws : List Word} {rs : List Response}
    (hkeeps : ∀ w ∈ ws, ∀ s, P s → NextSatisfies P (perform w s))
    (hrun : runWords ws s = some (t, rs)) (hs : P s) : P t := by
  induction ws generalizing s rs with
  | nil =>
    cases hrun
    exact hs
  | cons w ws ih =>
    rw [runWords] at hrun
    split at hrun
    case h_1 s₁ hfirst =>
      obtain ⟨⟨_, _⟩, hrest, ⟨⟩⟩ := Option.map_eq_some_iff.mp hrun
      exact ih (fun w' hw' => hkeeps w' (.tail _ hw')) hrest (hkeeps w (.head _) s hs s₁ hfirst)
    case h_2 => cases hrun
    case h_3 => cases hrun

end

end Sys2Proof.Machine
end

section
/-! ## RESULT is written by VAL and RST alone (R89, R127) -/

namespace Sys2Proof.Machine

/-- Each command writes its own components; the refusal while halted and the fault entry write none but STATUS. -/
theorem exec_keeps_result {i : Instr} (hval : ∀ e m, i ≠ .val e m) (hrst : i ≠ .rst) (s : State) :
    NextSatisfies (fun t => t.result = s.result) (exec i s) := by
  cases i with
  | val e m => exact absurd rfl (hval e m)
  | rst => exact absurd rfl hrst
  | stRd => exact answer_nextSatisfies rfl
  | payPush _ | pktPush _ | pktRd _ | enc _ _ _ =>
    refine unlessHalted_nextSatisfies rfl ?_
    split
    · exact raise_nextSatisfies rfl
    · split
      · exact fault_nextSatisfies _
      · exact answer_nextSatisfies rfl
  | _ => exact unlessHalted_nextSatisfies rfl (answer_nextSatisfies rfl)

theorem perform_keeps_result {w : Word} (hval : ∀ e m, decode w ≠ .ok (.val e m)) (hrst : decode w ≠ .ok .rst)
    (s : State) : NextSatisfies (fun t => t.result = s.result) (perform w s) := by
  cases hw : decode w with
  | ok i =>
    rw [perform_of_decode hw]
    exact exec_keeps_result (fun e m hi => hval e m (hi ▸ hw)) (fun hi => hrst (hi ▸ hw)) s
  | error e =>
    rw [perform_of_illegal hw]
    exact unlessHalted_nextSatisfies rfl (raise_nextSatisfies rfl)

/-- Without VAL a RESULT of 0 stays 0, RST or not. -/
theorem perform_keeps_result_zero {w : Word} (hval : ∀ e m, decode w ≠ .ok (.val e m)) {s : State}
    (hs : s.result = 0x0000) : NextSatisfies (fun t => t.result = 0x0000) (perform w s) := by
  by_cases hrst : decode w = .ok .rst
  · rw [perform_of_decode hrst]
    exact answer_nextSatisfies (resetBlock_result s)
  · exact fun t ht => (perform_keeps_result hval hrst s t ht).trans hs

theorem runWords_keeps_result {ws : List Word} {rs : List Response} {s t : State}
    (hother : ∀ w ∈ ws, w ≠ 0xF000 ∧ ∀ e m, decode w ≠ .ok (.val e m)) (hrun : runWords ws s = some (t, rs)) :
    t.result = s.result := by
  refine runWords_keeps (P := fun x => x.result = s.result) (fun w hw x hx y hy => ?_) hrun rfl
  obtain ⟨hword, hval⟩ := hother w hw
  have hrst : decode w ≠ .ok .rst := (decode_eq_ok_iff_eq rfl).not.mpr hword
  exact (perform_keeps_result hval hrst x y hy).trans hx

theorem runWords_keeps_result_zero {ws : List Word} {rs : List Response} {s t : State}
    (hval : ∀ w ∈ ws, ∀ e m, decode w ≠ .ok (.val e m)) (hrun : runWords ws s = some (t, rs))
    (hs : s.result = 0x0000) : t.result = 0x0000 :=
  runWords_keeps (P := fun x => x.result = 0x0000) (fun w hw _ => perform_keeps_result_zero (hval w hw)) hrun hs

theorem resultLegal_validate (crcFn : List Byte → Word) (raw : List Byte) (expseq : Byte) (mode : IntegrityMode) :
    ResultLegal (resultWord (validate crcFn raw expseq mode)) := by
  have hword := List.mem_map_of_mem (f := resultWord) (validate_mem crcFn raw expseq mode)
  rw [map_resultWord_validations] at hword
  exact List.mem_cons_of_mem _ hword

/-- A VAL that ends Ok leaves its response in RESULT. -/
theorem exec_val_result (expseq : Byte) (mode : IntegrityMode) (s : State) :
    NextSatisfies (fun t => ∀ r, t.resp = some (.ok r) → t.result = r ∧ ResultLegal r) (exec (.val expseq mode) s) := by
  refine unlessHalted_nextSatisfies nofun ?_
  split
  · exact fault_nextSatisfies _
  · refine answer_nextSatisfies ?_
    rintro _ ⟨⟩
    exact ⟨rfl, resultLegal_validate _ _ _ _⟩

end Sys2Proof.Machine
end

section
/-! ## The system commands (R87 to R91) -/

namespace Sys2Proof.Machine

theorem zext16_toNat {n : Nat} (hn : n ≤ 16) (v : BitVec n) : (zext16 v).toNat = v.toNat :=
  BitVec.toNat_setWidth_of_le hn

theorem reserved_packStatus (ecode : BitVec 4) (err : BitVec 1) :
    (packStatus ecode err).extractLsb' 1 3 = 0 ∧ (packStatus ecode err).extractLsb' 8 8 = 0 := by
  revert ecode err; decide

/-- No value of STATUS has a reserved bit set, so a read gives STATUS itself. -/
theorem packStatus_of_legal {v : Word} (hv : StatusLegal v) : packStatus (statusEcode v) (statusErr v) = v := by
  unfold StatusLegal at hv
  fin_cases hv <;> rfl

/-- No value of RESULT has a reserved bit set, so a read gives RESULT itself. -/
theorem packResult_of_legal {v : Word} (hv : ResultLegal v) :
    packResult (resultRprof v) (resultReason v) (resultVerdict v) = v := by
  unfold ResultLegal at hv
  fin_cases hv <;> rfl

theorem exec_resRd {s : State} (h : halted s = false) :
    exec .resRd s = .next { s with resp := some (.ok (readResult s)) } :=
  unlessHalted_answer h

theorem exec_resRd_of_result {s : State} {r : Word} (h : halted s = false) (hresult : s.result = r)
    (hlegal : ResultLegal r) : exec .resRd s = .next { s with resp := some (.ok r) } := by
  subst hresult
  have hread : readResult s = s.result := packResult_of_legal hlegal
  rw [exec_resRd h, hread]

/-- Settles O43: a run keeps a RESULT of 0 as long as it has no VAL, and keeps any RESULT as long as it has neither VAL
nor RST. -/
theorem resRdAnswersResult : Obligations.ResRdAnswersResult := by
  unfold Obligations.ResRdAnswersResult
  refine ⟨fun _ => decode_eq_ok_iff_eq rfl,
    fun s h => ⟨readResult s, exec_resRd h, packResult_of_legal⟩,
    fun _ s t hval hrst => exec_keeps_result hval hrst s t, ?_, ?_⟩
  · intro s₀ s t ws rs hstart hrun hval h
    have hs : s.result = 0x0000 := by
      rcases hstart with rfl | hrst
      · rfl
      · obtain rfl := exec_rst_eq_next.mp hrst
        rfl
    exact exec_resRd_of_result h (runWords_keeps_result_zero hval hrun hs) (by decide)
  · intro s t u e m r ws rs hexec hok hrun hother h
    obtain ⟨ht, hlegal⟩ := exec_val_result e m s t hexec r hok
    exact exec_resRd_of_result h ((runWords_keeps_result hother hrun).trans ht) hlegal

/-- Settles O41: RST has one word, and what it leaves is the reset block in whatever state it finds. -/
theorem rstResetsInEveryState : Obligations.RstResetsInEveryState := by
  unfold Obligations.RstResetsInEveryState
  refine ⟨fun _ => decode_eq_ok_iff_eq rfl,
    fun s => ⟨respond (.ok 0x0000) (resetBlock s), exec_rst_eq_next.mpr rfl, ?_⟩⟩
  simp [State.reset]

/-- Settles O42: ST.RD has one word, and STATUS is put together from its fields in the state as it stands. -/
theorem stRdAnswersStatus : Obligations.StRdAnswersStatus := by
  unfold Obligations.StRdAnswersStatus
  refine ⟨fun _ => decode_eq_ok_iff_eq rfl, fun s => ⟨readStatus s, rfl, ?_⟩⟩
  obtain ⟨hlow, hhigh⟩ := reserved_packStatus (statusEcode s.status) (statusErr s.status)
  exact ⟨statusErr_packStatus _ _, statusEcode_packStatus _ _, hlow, hhigh, packStatus_of_legal⟩

/-- Settles O44: PLEN.RD has one word, and PLEN's 11 bits fit the response. -/
theorem plenRdAnswersPlen : Obligations.PlenRdAnswersPlen :=
  ⟨fun _ => decode_eq_ok_iff_eq rfl, fun s h => ⟨zext16 s.plen, zext16_toNat (by decide) _, unlessHalted_answer h⟩⟩

/-- Settles O45: KLEN.RD has one word, and KLEN's 11 bits fit the response. -/
theorem klenRdAnswersKlen : Obligations.KlenRdAnswersKlen :=
  ⟨fun _ => decode_eq_ok_iff_eq rfl, fun s h => ⟨zext16 s.klen, zext16_toNat (by decide) _, unlessHalted_answer h⟩⟩

end Sys2Proof.Machine
end

section
/-! ## A halted block (R113) -/

namespace Sys2Proof.Machine

section
variable {s : State} (h : halted s = true)
include h

theorem exec_halted {i : Instr} (hrst : i ≠ .rst) (hstRd : i ≠ .stRd) : exec i s = .next (refuseHalted s) := by
  cases i with
  | rst => exact absurd rfl hrst
  | stRd => exact absurd rfl hstRd
  | _ => exact unlessHalted_halted h _

theorem perform_halted {w : Word} (hrst : w ≠ 0xF000) (hstRd : w ≠ 0xF001) :
    perform w s = .next (refuseHalted s) := by
  cases hw : decode w with
  | ok i =>
    rw [perform_of_decode hw]
    exact exec_halted h (fun hi => hrst ((decode_eq_ok_iff_eq rfl).mp (hi ▸ hw)))
      (fun hi => hstRd ((decode_eq_ok_iff_eq rfl).mp (hi ▸ hw)))
  | error e =>
    rw [perform_of_illegal hw]
    exact unlessHalted_halted h _

end

/-- Settles O48: RST and ST.RD make no check for the halted state, and every other word, legal or not, makes it
first. -/
theorem haltedBlockPerformsOnlyRstAndStRd : Obligations.HaltedBlockPerformsOnlyRstAndStRd :=
  fun s h => ⟨⟨respond (.ok 0x0000) (resetBlock s), perform_encode .rst s, rfl, rfl, halted_resetBlock s⟩,
    ⟨readStatus s, perform_encode .stRd s⟩, fun _ => perform_halted h⟩

end Sys2Proof.Machine
end

section
/-! ## The three ways a command ends (R46, R112, R113) -/

namespace Sys2Proof.Machine

/-- The states in which a command that found the block in `s` can leave it: performed Ok, refused while halted, or by
the entry of a fault that is recorded. -/
inductive EndsAs (s : State) : State → Prop where
  | performed (v : Word) (t : State) : EndsAs s (respond (.ok v) t)
  | refused (h : halted s = true) : EndsAs s (refuseHalted s)
  | raised (h : halted s = false) {f : BlockFault} (hf : f ≠ .halted) : EndsAs s (takeFault f s)

theorem unlessHalted_endsAs {s : State} {c : Result} (hc : halted s = false → NextSatisfies (EndsAs s) c) :
    NextSatisfies (EndsAs s) (unlessHalted s c) := by
  intro t ht
  rcases unlessHalted_next_cases ht with ⟨h, rfl⟩ | ⟨h, hnext⟩
  · exact .refused h
  · exact hc h t hnext

theorem exec_endsAs (i : Instr) (s : State) : NextSatisfies (EndsAs s) (exec i s) := by
  cases i with
  | rst | stRd => exact answer_nextSatisfies (.performed _ _)
  | payPush _ | pktPush _ | pktRd _ | enc _ _ _ =>
    refine unlessHalted_endsAs fun h => ?_
    split
    · exact raise_nextSatisfies (.raised h nofun)
    · split
      · exact fault_nextSatisfies _
      · exact answer_nextSatisfies (.performed _ _)
  | val _ _ =>
    refine unlessHalted_endsAs fun _ => ?_
    split
    · exact fault_nextSatisfies _
    · exact answer_nextSatisfies (.performed _ _)
  | _ => exact unlessHalted_endsAs fun _ => answer_nextSatisfies (.performed _ _)

theorem perform_endsAs (w : Word) (s : State) : NextSatisfies (EndsAs s) (perform w s) := by
  cases hw : decode w with
  | ok i =>
    rw [perform_of_decode hw]
    exact exec_endsAs i s
  | error e =>
    rw [perform_of_illegal hw]
    exact unlessHalted_endsAs fun h => raise_nextSatisfies (.raised h nofun)

/-- E_HALTED is the last code (R110). -/
theorem faultCode_le_five {f : BlockFault} (hf : f ≠ .halted) : (faultCode f).toNat ≤ 5 := by
  cases f with
  | halted => exact absurd rfl hf
  | _ => decide

/-- Settles O47: of the three ways a command ends, only the fault entry of a running block answers a fault other than
E_HALTED. -/
theorem faultEntryKeepsAllButStatus : Obligations.FaultEntryKeepsAllButStatus := by
  unfold Obligations.FaultEntryKeepsAllButStatus
  intro s t w c hnext hresp hcode
  cases perform_endsAs w s t hnext with
  | performed => cases hresp
  | refused =>
    cases hresp
    exact absurd rfl hcode
  | raised h hf =>
    cases hresp
    exact ⟨h, (faultCode_range _).1, faultCode_le_five hf, rfl, halted_takeFault _ s⟩

end Sys2Proof.Machine
end

section
/-! ## The checks in their order (R111) -/

namespace Sys2Proof.Machine

/-- The command's own check fails in the state: R111's third check, made by four commands. -/
def OwnCheckFails (s : State) : Instr → Prop
  | .payPush _ => s.plen.toNat = PAY_CAP
  | .pktPush _ => s.klen.toNat = PKT_CAP
  | .enc _ prof _ => size prof < s.plen.toNat
  | .pktRd n => s.klen.toNat ≤ n.toNat
  | _ => False

/-- A running block performs every command whose own check passes: the invariant gives it the cells it reads or
writes. -/
theorem exec_ok_of_check {s : State} {i : Instr} (h : halted s = false) (hs : s.Inv) (hcheck : ¬ OwnCheckFails s i) :
    ∃ t v, exec i s = .next t ∧ t.resp = some (.ok v) := by
  obtain ⟨⟨hplen, hpay⟩, ⟨hklen, hpkt⟩, -, -⟩ := hs
  cases i with
  | payPush b => exact ⟨_, _, exec_payPush_below h b (lt_of_le_of_ne hplen hcheck), rfl⟩
  | pktPush b => exact ⟨_, _, exec_pktPush_below h b (lt_of_le_of_ne hklen hcheck), rfl⟩
  | pktRd n =>
    have hvalid : n.toNat < s.klen.toNat := Nat.lt_of_not_le hcheck
    obtain ⟨b, hread⟩ := Memory.filled_read_below hpkt hvalid
    exact ⟨_, _, exec_pktRd_valid h hvalid hread, rfl⟩
  | enc seq prof mode =>
    exact ⟨_, _, exec_enc_fits h seq mode (Nat.le_of_not_lt hcheck) (Memory.filled_readRange hpay), rfl⟩
  | val expseq mode => exact ⟨_, _, exec_val h (Memory.filled_readRange hpkt) expseq mode, rfl⟩
  | rst | stRd => exact ⟨_, _, rfl, rfl⟩
  | _ => exact ⟨_, _, unlessHalted_answer h, rfl⟩

/-- Settles O46: a halted block refuses every word but RST and ST.RD, which have no check of their own; so every other
word that passes finds the block running, where the decoder and then the command's own check decide. -/
theorem checksAreMadeInOrder : Obligations.ChecksAreMadeInOrder := by
  unfold Obligations.ChecksAreMadeInOrder
  refine fun s w hs => ⟨fun h => perform_halted h, fun hpass => ?_⟩
  have hrunning (hother : ∀ i, decode w = .ok i → i ≠ .rst ∧ i ≠ .stRd) : halted s = false := by
    rcases hpass with h | rfl | rfl
    · exact h
    · exact absurd rfl (hother .rst (decode_encode .rst)).1
    · exact absurd rfl (hother .stRd (decode_encode .stRd)).2
  refine ⟨fun hnone => ?_,
    fun b hw hfull => (perform_of_decode hw).trans (exec_payPush_full (hrunning (by simp [hw])) b hfull),
    fun b hw hfull => (perform_of_decode hw).trans (exec_pktPush_full (hrunning (by simp [hw])) b hfull),
    fun seq _ mode hw hlong => (perform_of_decode hw).trans (exec_enc_long (hrunning (by simp [hw])) seq mode hlong),
    fun _ hw hbeyond => (perform_of_decode hw).trans (exec_pktRd_beyond (hrunning (by simp [hw])) hbeyond),
    fun i hw hpay hpkt henc hrd => ?_⟩
  · obtain ⟨e, he⟩ := illegal_iff_selects_none.mpr hnone
    exact (perform_of_illegal he).trans (illegalWord_running (hrunning (by simp [he])))
  · have hcheck : ¬ OwnCheckFails s i := by
      intro hfails
      cases i with
      | payPush b => exact hpay ⟨⟨b, rfl⟩, hfails⟩
      | pktPush b => exact hpkt ⟨⟨b, rfl⟩, hfails⟩
      | enc seq prof mode => exact henc ⟨seq, prof, mode, rfl, hfails⟩
      | pktRd n => exact hrd ⟨n, rfl, hfails⟩
      | _ => exact hfails
    rw [perform_of_decode hw]
    by_cases hsystem : i = .rst ∨ i = .stRd
    · obtain rfl | rfl := hsystem <;> exact ⟨_, _, rfl, rfl⟩
    · refine exec_ok_of_check (hrunning ?_) hs hcheck
      simpa [hw] using hsystem

end Sys2Proof.Machine
end

section
/-! ## Decoding and encoding a command (R47) -/

namespace Sys2Proof.Machine

/-- Settles O3: each shape reads its operands back from the fields they were put in. -/
theorem decodeOfEncodeIsTheCommand : Obligations.DecodeOfEncodeIsTheCommand := decode_encode

/-- Settles O4: opcode by opcode, the fields a shape reads and the reserved bits it asks to be 0 are the whole word. -/
theorem encodeOfDecodeIsTheWord : Obligations.EncodeOfDecodeIsTheWord := fun _ _ => encode_of_decode

end Sys2Proof.Machine
end

section
/-! ## The checksum: order, concatenation, padding, bit flips (R53) -/

namespace Sys2Proof.Machine

theorem sum8_append (xs ys : List Byte) : sum8 (xs ++ ys) = sum8 xs + sum8 ys := by
  rw [sum8, List.map_append, List.sum_append, BitVec.ofNat_add, sum8, sum8]

theorem toNat_sum8_replicate (k : Nat) (b : Byte) : (sum8 (List.replicate k b)).toNat = k * b.toNat % 256 := by
  rw [sum8, List.map_replicate, List.sum_replicate, smul_eq_mul, BitVec.toNat_ofNat]

/-- A flip of one bit of a byte changes the byte. -/
theorem flipBit_ne {k : Nat} (hk : k < 8) (b : Byte) : b ^^^ (1#8 <<< k) ≠ b := by
  intro h
  have hbit := congrArg (BitVec.getLsbD · k) h
  simp [hk] at hbit

/-- A change of one byte of a list changes its checksum: the other bytes add the same. -/
theorem sum8_modify_ne {xs : List Byte} {j : Nat} {f : Byte → Byte} (hf : ∀ b, f b ≠ b) (hj : j < xs.length) :
    sum8 (xs.modify j f) ≠ sum8 xs := by
  obtain ⟨before, b, after, hxs, -, hmodify⟩ := List.exists_of_modify f hj
  rw [hmodify, hxs, sum8_append, sum8_append, sum8_cons, sum8_cons]
  exact fun h => hf b (add_right_cancel (add_left_cancel h))

/-- Settles O34: a sum mod 256 does not see the order, and adds over concatenation, so k fill bytes add 26 each. -/
theorem sumLaws : Obligations.SumLaws := by
  unfold Obligations.SumLaws
  refine ⟨fun xs ys h => ?_, sum8_append, fun chunk k => ?_⟩
  · rw [sum8, (h.map BitVec.toNat).sum_eq, sum8]
  · rw [sum8_append, BitVec.toNat_add, toNat_sum8_replicate, Nat.mul_comm, Nat.add_mod_mod]
    rfl

/-- Settles O35: addition in the ring of bytes can be cancelled. -/
theorem sumDetectsABitFlip : Obligations.SumDetectsABitFlip :=
  fun _ _ _ hj hk => sum8_modify_ne (flipBit_ne hk) hj

end Sys2Proof.Machine
end

section
/-! ## The CRC as a linear fold (R55 to R57) -/

namespace Sys2Proof.Machine

/-- What an iteration of R55 adds to the shift: the polynomial, where the bit shifted out is 1. -/
def crcFeedback (out : Bool) : Word := if out then 0x1021 else 0x0000

theorem crcShift_eq (c : Word) : crcShift c = c <<< 1 ^^^ crcFeedback c.msb := by
  unfold crcShift crcFeedback
  split <;> simp

theorem crcFeedback_xor : ∀ a b : Bool, crcFeedback (a ^^ b) = crcFeedback a ^^^ crcFeedback b := by decide

theorem crcShift_xor (c d : Word) : crcShift (c ^^^ d) = crcShift c ^^^ crcShift d := by
  rw [crcShift_eq, crcShift_eq, crcShift_eq, BitVec.msb_xor, crcFeedback_xor, BitVec.shiftLeft_xor_distrib]
  ac_rfl

/-- The polynomial's bit 0 is 1, so the bit shifted out is seen in the result. -/
theorem getLsbD_crcShift_zero (c : Word) : (crcShift c).getLsbD 0 = c.msb := by
  rw [crcShift_eq]
  cases h : c.msb <;> simp [crcFeedback]

theorem crcShift_injective : Function.Injective crcShift := by
  intro c d h
  have hmsb : c.msb = d.msb := by rw [← getLsbD_crcShift_zero, h, getLsbD_crcShift_zero]
  have hshift : c <<< 1 = d <<< 1 := by
    rw [crcShift_eq, crcShift_eq, hmsb] at h
    exact (BitVec.xor_left_inj _).mp h
  rw [← BitVec.toNat_inj] at hshift ⊢
  rw [BitVec.msb_eq_decide, BitVec.msb_eq_decide, decide_eq_decide] at hmsb
  simp only [BitVec.toNat_shiftLeft] at hshift
  omega

theorem crcShifts_xor (n : Nat) (c d : Word) : crcShifts n (c ^^^ d) = crcShifts n c ^^^ crcShifts n d := by
  induction n generalizing c d with
  | zero => rfl
  | succ n ih => rw [crcShifts, crcShift_xor, ih, crcShifts, crcShifts]

theorem crcShifts_injective (n : Nat) : Function.Injective (crcShifts n) := by
  induction n with
  | zero => exact Function.injective_id
  | succ n ih => exact ih.comp crcShift_injective

theorem crcShifts_zero (n : Nat) : crcShifts n 0 = 0 := by
  induction n with
  | zero => rfl
  | succ n ih => exact ih

/-- As long as only zeros are shifted out, the iterations of R55 are a shift. -/
theorem crcShifts_eq_shiftLeft {n : Nat} {c : Word} (h : c.toNat * 2 ^ n < 2 ^ 16) : crcShifts n c = c <<< n := by
  induction n generalizing c with
  | zero => simp [crcShifts]
  | succ n ih =>
    rw [pow_succ', ← Nat.mul_assoc] at h
    have hdouble : c.toNat * 2 < 2 ^ 16 := (Nat.le_mul_of_pos_right _ (Nat.two_pow_pos n)).trans_lt h
    have hshift : crcShift c = c <<< 1 := by
      rw [crcShift_eq, BitVec.msb_eq_false_iff_two_mul_lt.mpr (by omega)]
      exact BitVec.xor_zero
    have htoNat : (c <<< 1).toNat = c.toNat * 2 := by
      rw [BitVec.toNat_shiftLeft]
      omega
    rw [crcShifts, hshift, ih (by rwa [htoNat]), ← BitVec.shiftLeft_add, Nat.add_comm]

theorem crcStep_xor (c d : Word) (a b : Byte) : crcStep (c ^^^ d) (a ^^^ b) = crcStep c a ^^^ crcStep d b := by
  have hhigh : (a ^^^ b) ++ 0#8 = (a ++ 0#8) ^^^ (b ++ 0#8) := (BitVec.xor_append (y₁ := 0#8) (y₂ := 0#8)).symm
  rw [crcStep, crcStep, crcStep, hhigh, ← crcShifts_xor]
  ac_rfl

theorem crcStep_left_injective (b : Byte) : Function.Injective (crcStep · b) :=
  fun _ _ h => (BitVec.xor_left_inj _).mp (crcShifts_injective 8 h)

theorem crcStep_right_injective (c : Word) : Function.Injective (crcStep c) := by
  intro a b h
  have hhigh : a ++ 0#8 = b ++ 0#8 := (BitVec.xor_right_inj c).mp (crcShifts_injective 8 h)
  exact (BitVec.append_left_inj _).mp hhigh

theorem foldl_crcStep_injective (xs : List Byte) : Function.Injective (xs.foldl crcStep) := by
  induction xs with
  | nil => exact Function.injective_id
  | cons b xs ih => exact ih.comp (crcStep_left_injective b)

theorem foldl_crcStep_xor {xs ys : List Byte} (h : xs.length = ys.length) (c d : Word) :
    (List.zipWith (· ^^^ ·) xs ys).foldl crcStep (c ^^^ d) = xs.foldl crcStep c ^^^ ys.foldl crcStep d := by
  induction xs generalizing ys c d with
  | nil =>
    obtain rfl := List.length_eq_zero_iff.mp h.symm
    rfl
  | cons a xs ih =>
    obtain ⟨b, ys, rfl⟩ := List.exists_cons_of_length_eq_add_one h.symm
    simp only [List.zipWith_cons_cons, List.foldl_cons, crcStep_xor]
    exact ih (by simpa using h) _ _

theorem crc16_append (xs ys : List Byte) : crc16 (xs ++ ys) = ys.foldl crcStep (crc16 xs) := List.foldl_append

theorem crcShifts_eight_low (b : Byte) : crcShifts 8 (0#8 ++ b) = b ++ 0#8 := by
  have hb := b.isLt
  have hlow : (0#8 ++ b).toNat = b.toNat := by rw [← zext16_byte, zext16_toNat (by decide)]
  have hhigh : (b ++ 0#8).toNat = b.toNat * 2 ^ 8 := by
    rw [BitVec.toNat_append, Nat.shiftLeft_eq]
    exact Nat.or_zero _
  rw [crcShifts_eq_shiftLeft (by rw [hlow]; omega), ← BitVec.toNat_inj, BitVec.toNat_shiftLeft, hlow, hhigh,
    Nat.shiftLeft_eq]
  exact Nat.mod_eq_of_lt (by omega)

/-- The step over the register's own high byte leaves its low byte, moved up. -/
theorem crcStep_beWord (high low : Byte) : crcStep (beWord high low) high = low ++ 0#8 := by
  have hxor : beWord high low ^^^ (high ++ 0#8) = 0#8 ++ low := by
    refine BitVec.xor_append.trans ?_
    rw [BitVec.xor_self, BitVec.xor_zero]
  rw [crcStep, hxor, crcShifts_eight_low]

theorem crcStep_cancel (b : Byte) : crcStep (b ++ 0#8) b = 0 := by
  rw [crcStep, BitVec.xor_self]
  exact crcShifts_zero 8

theorem crc16_modify_ne {xs : List Byte} {j : Nat} {f : Byte → Byte} (hf : ∀ b, f b ≠ b) (hj : j < xs.length) :
    crc16 (xs.modify j f) ≠ crc16 xs := by
  obtain ⟨before, b, after, hxs, -, hmodify⟩ := List.exists_of_modify f hj
  rw [hmodify, hxs, crc16_append, crc16_append, List.foldl_cons, List.foldl_cons]
  exact fun h => hf b (crcStep_right_injective _ (foldl_crcStep_injective after h))

/-- Settles O37: the fold goes on from where it stands, and a zero byte leaves a zero register zero. -/
theorem crcStreamsAndIgnoresLeadingZeros : Obligations.CrcStreamsAndIgnoresLeadingZeros := by
  unfold Obligations.CrcStreamsAndIgnoresLeadingZeros
  refine ⟨crc16_append, fun k xs => ?_⟩
  have hzeros : crc16 (List.replicate k 0x00) = 0x0000 := by
    induction k with
    | zero => rfl
    | succ k ih => exact ih
  rw [crc16_append, hzeros, crc16]

/-- Settles O38: each step is linear in the register and the byte together, so the fold is. -/
theorem crcIsLinear : Obligations.CrcIsLinear := fun _ _ h => foldl_crcStep_xor h 0 0

/-- Settles O39: fed its own high byte the register becomes its low byte moved up, which the low byte then cancels. -/
theorem crcResidueIsZero : Obligations.CrcResidueIsZero := by
  intro xs
  have hhigh : crcStep (crc16 xs) ((crc16 xs).extractLsb' 8 8) = (crc16 xs).extractLsb' 0 8 ++ 0#8 := by
    rw [← crcStep_beWord, beWord_eq_iff.mpr ⟨rfl, rfl⟩]
  rw [crc16_append, List.foldl_cons, List.foldl_cons, List.foldl_nil, hhigh, crcStep_cancel]

/-- Settles O40: a step is injective in its byte, and every later step in the register. -/
theorem crcDetectsABitFlip : Obligations.CrcDetectsABitFlip :=
  fun _ _ _ hj hk => crc16_modify_ne (flipBit_ne hk) hj

/-- Settles O36, each value by evaluation. -/
theorem crcWorkedValues : Obligations.CrcWorkedValues := by
  unfold Obligations.CrcWorkedValues
  decide +kernel

end Sys2Proof.Machine
end

section
/-! ## What a packet does not depend on, and its count (R43, R71) -/

namespace Sys2Proof.Machine

theorem padded_append_fill {chunk : List Byte} {prof : Profile} (h : chunk.length + 1 ≤ size prof) :
    padded prof (chunk ++ [FILL]) = padded prof chunk := by
  have hcount : size prof - chunk.length = (size prof - (chunk.length + 1)) + 1 := by omega
  simp [padded, hcount, List.replicate_succ]

theorem encodePacket_congr_padded {chunk chunk' : List Byte} {prof : Profile}
    (h : padded prof chunk = padded prof chunk') (crcFn : List Byte → Word) (seq : Byte) (mode : IntegrityMode) :
    encodePacket crcFn seq chunk prof mode = encodePacket crcFn seq chunk' prof mode := by
  rw [encodePacket, h, encodePacket]

/-- Settles O23: the number stands in bytes 1 and 2 only, and the chunk enters as its padded payload only. -/
theorem encodeFacts : Obligations.EncodeFacts := by
  unfold Obligations.EncodeFacts
  intro crcFn seq chunk prof mode h
  refine ⟨encodePacket_length crcFn seq mode h, fun seq' a h1 h2 => ?_,
    fun hfits => encodePacket_congr_padded (padded_append_fill hfits) crcFn seq mode⟩
  match a, h1, h2 with
  | 0, _, _ => rfl
  | a + 3, _, _ => rfl

theorem bytesAfterHeader_hdr (prof : Profile) (mode : IntegrityMode) :
    bytesAfterHeader (classify (hdr prof)) mode = some (2 + size prof + tlen mode) := by
  cases prof <;> rfl

/-- Settles O32: the header's class stands for its profile, and the rest is the number, its complement, the payload and
the trailer. -/
theorem headerTellsThePacketLength : Obligations.HeaderTellsThePacketLength := by
  unfold Obligations.HeaderTellsThePacketLength
  intro crcFn seq chunk prof mode h
  refine ⟨hdr prof, _, _, rfl, bytesAfterHeader_hdr prof mode, ?_⟩
  exact Nat.succ_injective ((encodePacket_length crcFn seq mode h).trans (by omega))

end Sys2Proof.Machine
end

section
/-! ## The cells of a stored packet (R28, R72) -/

namespace Sys2Proof.Machine

theorem read_packet (packet : List Byte) (a : Nat) : (Memory.cellsFrom 0 packet).read a = packet[a]? := by
  simp [Memory.read_cellsFrom]

/-- Where the chunk fits, ENC stores its packet from cell 0 up, and the block still runs. -/
theorem exec_enc_stores {s : State} (h : halted s = false) (hs : PayFilled s) (seq : Byte) {prof : Profile}
    (mode : IntegrityMode) (hfits : s.plen.toNat ≤ size prof) : ∃ chunk t, chunk.length ≤ size prof ∧
      exec (.enc seq prof mode) s = .next t ∧ halted t = false ∧
      t.pkt = Memory.cellsFrom 0 (encodePacket crc16 seq chunk prof mode) ∧
      t.klen = BitVec.ofNat 11 (encodePacket crc16 seq chunk prof mode).length := by
  obtain ⟨-, hfilled⟩ := hs
  have hread := Memory.filled_readRange hfilled
  obtain ⟨hlength, -⟩ := Memory.readRange_some hread
  exact ⟨_, _, hlength.trans_le hfits, exec_enc_fits h seq mode hfits hread, h, rfl, rfl⟩

section
variable (crcFn : List Byte → Word) (seq : Byte) {chunk : List Byte} {prof : Profile} (h : chunk.length ≤ size prof)
include h

theorem readRange_payload (mode : IntegrityMode) :
    (Memory.cellsFrom 0 (encodePacket crcFn seq chunk prof mode)).readRange 3 (size prof) =
      some (padded prof chunk) := by
  rw [← padded_length h]
  refine Memory.readRange_cellsFrom _ _ 3 fun k hk => (read_packet _ _).trans ?_
  exact encodePacket_getElem?_payload crcFn seq mode h (padded_length h ▸ hk)

theorem read_trailer (mode : IntegrityMode) (k : Nat) :
    (Memory.cellsFrom 0 (encodePacket crcFn seq chunk prof mode)).read (3 + size prof + k) =
      (trailer crcFn mode (padded prof chunk))[k]? := by
  rw [read_packet, encodePacket_getElem?_trailer crcFn seq mode h]

end

/-- The two bytes of a 16-bit datum in memory order read as the datum (R28). -/
theorem readWord_of_beBytes {m : Memory} {a : Nat} {v : Word} (hread : ∀ k, m.read (a + k) = (beBytes v)[k]?) :
    m.readWord a = some v := by
  have hhigh : m.read a = some (v.extractLsb' 8 8) := hread 0
  have hlow : m.read (a + 1) = some (v.extractLsb' 0 8) := hread 1
  have hword : beWord (v.extractLsb' 8 8) (v.extractLsb' 0 8) = v := beWord_eq_iff.mpr ⟨rfl, rfl⟩
  simp only [Memory.readWord, hhigh, hlow, hword]

/-- Settles O24: the cells of the packet are filled from 0 up, and in CRC mode the trailer's two bytes are those of the
CRC in memory order. -/
theorem encTrailerReadsBigEndian : Obligations.EncTrailerReadsBigEndian := by
  unfold Obligations.EncTrailerReadsBigEndian
  intro s t seq prof h hs hfits hexec
  obtain ⟨chunk, t', hchunk, hnext, -, hpkt, -⟩ := exec_enc_stores h hs seq .crc hfits
  obtain rfl : t = t' := Host.Outcome.next.inj (hexec.symm.trans hnext)
  have htrailer := read_trailer crc16 seq hchunk .crc
  rw [hpkt]
  exact ⟨padded prof chunk, readRange_payload crc16 seq hchunk .crc, readWord_of_beBytes htrailer, htrailer 0⟩

end Sys2Proof.Machine
end

section
/-! ## The validator on packets taken apart (R74, R82) -/

namespace Sys2Proof.Machine

section
variable {prof : Profile} {mode : IntegrityMode} {payload tail : List Byte}

/-- Every packet of the right length is a header byte, two more bytes, a payload and a trailer. -/
theorem exists_parts {raw : List Byte} {b : Byte} (hhead : raw[0]? = some b)
    (hlength : raw.length = packetLength prof mode) : ∃ seq comp payload tail,
      payload.length = size prof ∧ tail.length = tlen mode ∧ raw = [b, seq, comp] ++ payload ++ tail := by
  unfold packetLength at hlength
  match raw, hhead with
  | [_], _ | [_, _], _ => simp only [List.length_cons, List.length_nil] at hlength; omega
  | _ :: seq :: comp :: rest, rfl =>
    simp only [List.length_cons] at hlength
    refine ⟨seq, comp, rest.take (size prof), rest.drop (size prof), ?_, ?_, ?_⟩
    · rw [List.length_take]; omega
    · rw [List.length_drop]; omega
    · simp

variable (hpayload : payload.length = size prof) (b seq comp : Byte)
include hpayload

theorem payloadOf_parts : payloadOf prof ([b, seq, comp] ++ payload ++ tail) = payload := by
  simp [payloadOf, ← hpayload]

theorem getElem?_parts_tail (k : Nat) : ([b, seq, comp] ++ payload ++ tail)[3 + size prof + k]? = tail[k]? := by
  have hhead : ([b, seq, comp] ++ payload).length = 3 + size prof := by
    rw [List.length_append, hpayload]; rfl
  rw [← hhead, List.getElem?_append_right (Nat.le_add_right _ _), Nat.add_sub_cancel_left]

variable (htail : tail.length = tlen mode)
include htail

theorem length_parts : ([b, seq, comp] ++ payload ++ tail).length = packetLength prof mode := by
  rw [List.length_append, List.length_append, hpayload, htail]; rfl

theorem trailerVerifies_parts (crcFn : List Byte → Word) :
    trailerVerifies crcFn prof mode ([b, seq, comp] ++ payload ++ tail) = true ↔ tail = trailer crcFn mode payload := by
  have hlength := length_parts hpayload b seq comp htail
  have hpayloadOf := payloadOf_parts (tail := tail) hpayload b seq comp
  have hbyte := getElem?_parts_tail (tail := tail) hpayload b seq comp
  cases mode with
  | sum =>
    obtain ⟨x, rfl⟩ := List.length_eq_one_iff.mp htail
    rw [trailerVerifies_sum_iff hlength, hpayloadOf, ← Nat.add_zero (3 + size prof), hbyte]
    simp [trailer]
  | crc =>
    obtain ⟨x, y, rfl⟩ := List.length_eq_two.mp htail
    rw [trailerVerifies_crc_iff hlength, hpayloadOf, hbyte, ← Nat.add_zero (3 + size prof), hbyte]
    simp [trailer, beBytes]

/-- The verdict on a packet in parts: its complement byte and its trailer are looked at before its number. -/
theorem validate_parts (crcFn : List Byte → Word) (e : Byte) :
    validate crcFn ([hdr prof, seq, comp] ++ payload ++ tail) e mode =
      if comp ≠ complement seq then ⟨.rejected, .complement, profBit prof⟩
      else if tail = trailer crcFn mode payload then sequenceVerdict seq e (profBit prof)
      else ⟨.rejected, .trailer, profBit prof⟩ := by
  rw [validate_dataHeader crcFn e mode rfl, validateBody,
    if_neg (not_not.mpr (length_parts hpayload (hdr prof) seq comp htail))]
  simp only [trailerVerifies_parts hpayload (hdr prof) seq comp htail crcFn]
  rfl

end

theorem validate_encodePacket {chunk : List Byte} {prof : Profile} (h : chunk.length ≤ size prof)
    (crcFn : List Byte → Word) (seq e : Byte) (mode : IntegrityMode) :
    validate crcFn (encodePacket crcFn seq chunk prof mode) e mode = sequenceVerdict seq e (profBit prof) := by
  rw [encodePacket, validate_parts (padded_length h) seq (complement seq) (trailer_length crcFn mode _),
    if_neg (not_not.mpr rfl), if_pos rfl]

theorem padded_full {payload : List Byte} {prof : Profile} (h : payload.length = size prof) :
    padded prof payload = payload := by
  simp [padded, h]

/-- What is not rejected is the encoding of a full payload. -/
theorem rejected_or_encoded (crcFn : List Byte → Word) (raw : List Byte) (e : Byte) (mode : IntegrityMode) :
    (validate crcFn raw e mode).verdict = .rejected ∨
      ∃ seq prof payload, payload.length = size prof ∧ raw = encodePacket crcFn seq payload prof mode := by
  cases raw with
  | nil => exact .inl rfl
  | cons b rest =>
    rcases dataHeader_cases b with ⟨prof, rfl⟩ | ⟨-, -, hnone⟩
    · by_cases hlength : (hdr prof :: rest).length = packetLength prof mode
      · obtain ⟨seq, comp, payload, tail, hpayload, htail, hraw⟩ := exists_parts (raw := hdr prof :: rest) rfl hlength
        rw [hraw, validate_parts hpayload seq comp htail]
        split_ifs with hcomp htrailer
        · exact .inl rfl
        · refine .inr ⟨seq, prof, payload, hpayload, ?_⟩
          rw [encodePacket, padded_full hpayload, ← htrailer, ← not_not.mp hcomp]
        · exact .inl rfl
      · refine .inl ?_
        rw [validate_dataHeader crcFn e mode rfl, validateBody, if_pos hlength]
    · refine .inl ?_
      rw [validate, hnone]

theorem sequenceVerdict_accepted_iff {seq e : Byte} {rprof : BitVec 1} :
    (sequenceVerdict seq e rprof).verdict = .accepted ↔ seq = e := by
  unfold sequenceVerdict
  split_ifs with h <;> simp [h]

/-- No number is the one before itself, so the first check of R79 does not hide the second. -/
theorem sequenceVerdict_duplicate_iff {seq e : Byte} {rprof : BitVec 1} :
    (sequenceVerdict seq e rprof).verdict = .duplicateOfPrevious ↔ seq = e - 1 := by
  have hne : e ≠ e - 1 := fun h => absurd (sub_eq_self.mp h.symm) (by decide)
  unfold sequenceVerdict
  split_ifs with h h'
  · simpa [h] using hne
  · simp [h']
  · simpa using h'

/-- A verdict that the sequence check gives exactly to the number `n` is the verdict on exactly the encodings numbered
`n`. -/
theorem verdict_iff_encoded {crcFn : List Byte → Word} {raw : List Byte} {e n : Byte} {mode : IntegrityMode}
    {v : Verdict} (hv : v ≠ .rejected)
    (hseq : ∀ seq rprof, (sequenceVerdict seq e rprof).verdict = v ↔ seq = n) :
    (validate crcFn raw e mode).verdict = v ↔
      ∃ prof payload, payload.length = size prof ∧ raw = encodePacket crcFn n payload prof mode := by
  constructor
  · intro h
    rcases rejected_or_encoded crcFn raw e mode with hrejected | ⟨seq, prof, payload, hpayload, rfl⟩
    · exact absurd (h.symm.trans hrejected) hv
    · rw [validate_encodePacket hpayload.le, hseq] at h
      exact ⟨prof, payload, hpayload, h ▸ rfl⟩
  · rintro ⟨prof, payload, hpayload, rfl⟩
    rw [validate_encodePacket hpayload.le, hseq]

/-- Settles O26: what is not rejected is an encoding, and on an encoding the sequence check alone decides. -/
theorem validatorAcceptsExactlyEncodedPackets : Obligations.ValidatorAcceptsExactlyEncodedPackets :=
  fun _ _ _ _ => ⟨verdict_iff_encoded nofun fun _ _ => sequenceVerdict_accepted_iff,
    verdict_iff_encoded nofun fun _ _ => sequenceVerdict_duplicate_iff⟩

theorem tlen_injective : Function.Injective tlen := by
  intro m m' h
  match m, m', h with
  | .sum, .sum, _ => rfl
  | .crc, .crc, _ => rfl

theorem validate_encodePacket_otherMode {chunk : List Byte} {prof : Profile} (h : chunk.length ≤ size prof)
    (crcFn : List Byte → Word) (seq e : Byte) {mode m : IntegrityMode} (hm : m ≠ mode) :
    validate crcFn (encodePacket crcFn seq chunk prof mode) e m = ⟨.rejected, .length, profBit prof⟩ := by
  have hlength : (encodePacket crcFn seq chunk prof mode).length ≠ packetLength prof m := by
    rw [encodePacket_length crcFn seq mode h, packetLength, Ne, Nat.add_left_cancel_iff]
    exact fun heq => hm (tlen_injective heq.symm)
  rw [validate_dataHeader crcFn e m rfl, validateBody, if_pos hlength]

/-- Settles O27: a packet of the call's mode comes to the sequence check, one of the other mode has another length. -/
theorem encodeValidateRoundTrip : Obligations.EncodeValidateRoundTrip := by
  unfold Obligations.EncodeValidateRoundTrip
  intro crcFn seq chunk prof mode h p
  have hvalidate (e : Byte) := validate_encodePacket h crcFn seq e mode
  refine ⟨?_, ?_, fun e he he' => ?_, fun e m hm => validate_encodePacket_otherMode h crcFn seq e hm,
    encodePacket_payload crcFn seq mode h⟩
  · rw [hvalidate, sequenceVerdict, if_pos rfl]
  · rw [hvalidate, sequenceVerdict, if_neg (by simp), if_pos (add_sub_cancel_right seq 1).symm]
  · rw [hvalidate, sequenceVerdict, if_neg he.symm, if_neg fun heq => he' (by rw [heq, sub_add_cancel])]

theorem modify_append_left {α : Type} {xs : List α} {j : Nat} (hj : j < xs.length) (ys : List α) (f : α → α) :
    (xs ++ ys).modify j f = xs.modify j f ++ ys := by
  induction xs generalizing j with
  | nil => cases hj
  | cons x xs ih =>
    cases j with
    | zero => rfl
    | succ j => exact congrArg (x :: ·) (ih (Nat.lt_of_succ_lt_succ hj))

/-- A payload byte changed in place leaves the other parts of the packet. -/
theorem modify_parts {payload : List Byte} {j : Nat} (hj : j < payload.length) (tail : List Byte) (b seq comp : Byte)
    (f : Byte → Byte) :
    ([b, seq, comp] ++ payload ++ tail).modify (3 + j) f = [b, seq, comp] ++ payload.modify j f ++ tail := by
  rw [Nat.add_comm]
  exact congrArg ([b, seq, comp] ++ ·) (modify_append_left hj tail f)

theorem beBytes_injective : Function.Injective beBytes := by
  intro v w h
  obtain ⟨hhigh, hlow⟩ : v.extractLsb' 8 8 = w.extractLsb' 8 8 ∧ v.extractLsb' 0 8 = w.extractLsb' 0 8 := by
    simpa [beBytes] using h
  rw [← beWord_eq_iff.mpr ⟨hhigh, hlow⟩, beWord_eq_iff.mpr ⟨rfl, rfl⟩]

/-- A changed byte shows in the trailer of either mode. -/
theorem trailer_crc16_modify_ne {payload : List Byte} {j : Nat} {f : Byte → Byte} (hf : ∀ b, f b ≠ b)
    (hj : j < payload.length) (mode : IntegrityMode) :
    trailer crc16 mode (payload.modify j f) ≠ trailer crc16 mode payload := by
  cases mode with
  | sum => exact fun h => sum8_modify_ne hf hj (List.head_eq_of_cons_eq h)
  | crc => exact fun h => crc16_modify_ne hf hj (beBytes_injective h)

/-- Settles O28: the flip stays in the payload, so the packet's trailer is that of another payload. -/
theorem flippedPayloadBitIsRejected : Obligations.FlippedPayloadBitIsRejected := by
  unfold Obligations.FlippedPayloadBitIsRejected
  intro seq e chunk prof mode j k h hj hk
  have hpadded := padded_length h
  rw [← hpadded] at hj
  rw [encodePacket, modify_parts hj, validate_parts (by rw [List.length_modify, hpadded]) seq _ (trailer_length _ _ _),
    if_neg (not_not.mpr rfl), if_neg (trailer_crc16_modify_ne (flipBit_ne hk) hj mode).symm]

end Sys2Proof.Machine
end

section
/-! ## What each command writes, once for all of them (R10, R46) -/

namespace Sys2Proof.Machine

/-- The commands that only answer a value. -/
def IsRead (i : Instr) : Prop :=
  i ∈ [.crcRd, .sumRd, .stRd, .resRd, .plenRd, .klenRd] ∨ (∃ n, i = .pktRd n) ∨ ∃ b, i = .hdrCls b

/-- What each command writes when it is performed Ok, with what its checks then say of the state; the response is
apart. -/
inductive Writes (s : State) : Instr → State → Prop where
  | crcClr : Writes s .crcClr { s with crc := 0x0000 }
  | crcUpd (b : Byte) : Writes s (.crcUpd b) { s with crc := crcStep s.crc b }
  | sumClr : Writes s .sumClr { s with sum := 0x00 }
  | sumUpd (b : Byte) : Writes s (.sumUpd b) { s with sum := s.sum + b }
  | payClr : Writes s .payClr { s with plen := 0, pay := [] }
  | payPush (b : Byte) (hbelow : s.plen.toNat < PAY_CAP) :
      Writes s (.payPush b) { s with pay := s.pay.write s.plen.toNat b, plen := s.plen + 1 }
  | pktClr : Writes s .pktClr { s with klen := 0, pkt := [] }
  | pktPush (b : Byte) (hbelow : s.klen.toNat < PKT_CAP) :
      Writes s (.pktPush b) { s with pkt := s.pkt.write s.klen.toNat b, klen := s.klen + 1 }
  | enc (seq : Byte) (prof : Profile) (mode : IntegrityMode) {packet : List Byte}
      (hlength : packet.length = packetLength prof mode) : Writes s (.enc seq prof mode)
        { s with pkt := Memory.cellsFrom 0 packet, klen := BitVec.ofNat 11 packet.length }
  | val (expseq : Byte) (mode : IntegrityMode) {r : Word} (hlegal : ResultLegal r) :
      Writes s (.val expseq mode) { s with result := r }
  | rst : Writes s .rst (resetBlock s)
  | read {i : Instr} (hread : IsRead i) : Writes s i s

/-- A next state that answers Ok is what the command writes, with the response. -/
def WritesIfOk (s : State) (i : Instr) (t : State) : Prop :=
  ∀ v, t.resp = some (.ok v) → ∃ t₀, Writes s i t₀ ∧ t = respond (.ok v) t₀

section
variable {s : State} {i : Instr}

theorem answer_writesIfOk {v : Word} {t : State} (h : Writes s i t) : NextSatisfies (WritesIfOk s i) (answer v t) :=
  answer_nextSatisfies fun _ hv => ⟨t, h, by cases hv; rfl⟩

theorem raise_writesIfOk (f : BlockFault) : NextSatisfies (WritesIfOk s i) (raise f s) :=
  raise_nextSatisfies nofun

theorem unlessHalted_writesIfOk {c : Result} (h : NextSatisfies (WritesIfOk s i) c) :
    NextSatisfies (WritesIfOk s i) (unlessHalted s c) :=
  unlessHalted_nextSatisfies nofun h

end

theorem execPayPush_writesIfOk (b : Byte) (s : State) :
    NextSatisfies (WritesIfOk s (.payPush b)) (execPayPush b s) := by
  apply unlessHalted_writesIfOk
  split
  · exact raise_writesIfOk _
  · obtain ⟨hbelow, hok⟩ | ⟨-, herror⟩ := appendByte_cases PAY_CAP s.pay s.plen.toNat b
    · rw [hok]
      exact answer_writesIfOk (.payPush b hbelow)
    · rw [herror]
      exact fault_nextSatisfies _

theorem execPktPush_writesIfOk (b : Byte) (s : State) :
    NextSatisfies (WritesIfOk s (.pktPush b)) (execPktPush b s) := by
  apply unlessHalted_writesIfOk
  split
  · exact raise_writesIfOk _
  · obtain ⟨hbelow, hok⟩ | ⟨-, herror⟩ := appendByte_cases PKT_CAP s.pkt s.klen.toNat b
    · rw [hok]
      exact answer_writesIfOk (.pktPush b hbelow)
    · rw [herror]
      exact fault_nextSatisfies _

theorem execPktRd_writesIfOk (n : Index) (s : State) :
    NextSatisfies (WritesIfOk s (.pktRd n)) (execPktRd n s) := by
  apply unlessHalted_writesIfOk
  split
  · exact raise_writesIfOk _
  · split
    · exact fault_nextSatisfies _
    · exact answer_writesIfOk (.read (.inr (.inl ⟨n, rfl⟩)))

theorem execEnc_writesIfOk (seq : Byte) (prof : Profile) (mode : IntegrityMode) (s : State) :
    NextSatisfies (WritesIfOk s (.enc seq prof mode)) (execEnc seq prof mode s) := by
  apply unlessHalted_writesIfOk
  split
  case isTrue => exact raise_writesIfOk _
  case isFalse hfits =>
    split
    case h_1 => exact fault_nextSatisfies _
    case h_2 chunk hread =>
      obtain ⟨hlength, -⟩ := Memory.readRange_some hread
      exact answer_writesIfOk (.enc seq prof mode (encodePacket_length _ seq mode (by omega)))

theorem execVal_writesIfOk (expseq : Byte) (mode : IntegrityMode) (s : State) :
    NextSatisfies (WritesIfOk s (.val expseq mode)) (execVal expseq mode s) := by
  apply unlessHalted_writesIfOk
  split
  · exact fault_nextSatisfies _
  · exact answer_writesIfOk (.val expseq mode (resultLegal_validate _ _ expseq mode))

theorem exec_writesIfOk (i : Instr) (s : State) : NextSatisfies (WritesIfOk s i) (exec i s) := by
  cases i with
  | crcClr => exact unlessHalted_writesIfOk (answer_writesIfOk .crcClr)
  | crcUpd b => exact unlessHalted_writesIfOk (answer_writesIfOk (.crcUpd b))
  | sumClr => exact unlessHalted_writesIfOk (answer_writesIfOk .sumClr)
  | sumUpd b => exact unlessHalted_writesIfOk (answer_writesIfOk (.sumUpd b))
  | payClr => exact unlessHalted_writesIfOk (answer_writesIfOk .payClr)
  | payPush b => exact execPayPush_writesIfOk b s
  | pktClr => exact unlessHalted_writesIfOk (answer_writesIfOk .pktClr)
  | pktPush b => exact execPktPush_writesIfOk b s
  | pktRd n => exact execPktRd_writesIfOk n s
  | enc seq prof mode => exact execEnc_writesIfOk seq prof mode s
  | val expseq mode => exact execVal_writesIfOk expseq mode s
  | hdrCls b => exact unlessHalted_writesIfOk (answer_writesIfOk (.read (.inr (.inr ⟨b, rfl⟩))))
  | rst => exact answer_writesIfOk .rst
  | stRd => exact answer_writesIfOk (.read (.inl (by simp)))
  | crcRd | sumRd | resRd | plenRd | klenRd =>
    exact unlessHalted_writesIfOk (answer_writesIfOk (.read (.inl (by simp))))

section
variable {P : State → Prop} {s : State} {i : Instr}

/-- What holds after the command's writes, after the refusal and after every fault entry holds after the command. -/
theorem exec_nextSatisfies (hok : ∀ v t, Writes s i t → P (respond (.ok v) t)) (hrefused : P (refuseHalted s))
    (hraised : ∀ f, f ≠ .halted → P (takeFault f s)) : NextSatisfies P (exec i s) := by
  intro t hexec
  cases exec_endsAs i s t hexec with
  | performed v t =>
    obtain ⟨t₀, hwrites, heq⟩ := exec_writesIfOk i s _ hexec v rfl
    rw [heq]
    exact hok v t₀ hwrites
  | refused => exact hrefused
  | raised _ hf => exact hraised _ hf

theorem perform_nextSatisfies {w : Word} (hok : ∀ i v t, Writes s i t → P (respond (.ok v) t))
    (hrefused : P (refuseHalted s)) (hraised : ∀ f, f ≠ .halted → P (takeFault f s)) :
    NextSatisfies P (perform w s) := by
  cases hw : decode w with
  | ok i =>
    rw [perform_of_decode hw]
    exact exec_nextSatisfies (hok i) hrefused hraised
  | error e =>
    rw [perform_of_illegal hw]
    exact unlessHalted_nextSatisfies hrefused (raise_nextSatisfies (hraised .illegal nofun))

end

/-- Settles O55: a fault entry writes STATUS alone, a refusal nothing, and each command its own components. -/
theorem onlyNamedCommandsWrite : Obligations.OnlyNamedCommandsWrite := by
  unfold Obligations.OnlyNamedCommandsWrite
  intro i s
  change NextSatisfies _ (exec i s)
  refine exec_nextSatisfies ?_ (by simp) (by simp)
  intro v t hwrites
  cases hwrites <;> simp

end Sys2Proof.Machine
end

section
/-! ## Reads, and the response that no command reads (R85, R88 to R91) -/

namespace Sys2Proof.Machine

/-- The last response enters no command (log entry 3): each writes its own over it. -/
theorem exec_respond (i : Instr) (r : Response) (s : State) : exec i (respond r s) = exec i s := by
  cases i <;> rfl

theorem writes_of_isRead {i : Instr} {s t : State} (hread : IsRead i) (hwrites : Writes s i t) : t = s := by
  cases hwrites with
  | read => rfl
  | _ => simp [IsRead] at hread

/-- Settles O56: a read answered Ok writes the response only, which no command reads, so the same command again does
the same. -/
theorem readsHaveNoSideEffect : Obligations.ReadsHaveNoSideEffect := by
  unfold Obligations.ReadsHaveNoSideEffect
  intro i s t v hread hexec hresp
  obtain ⟨t₀, hwrites, rfl⟩ := exec_writesIfOk i s t hexec v hresp
  obtain rfl := writes_of_isRead hread hwrites
  exact ⟨rfl, (exec_respond i _ _).trans hexec⟩

end Sys2Proof.Machine
end

section
/-! ## One step (R33, R45, R111) -/

namespace Sys2Proof.Machine

theorem step_of_nil {s : State} (h : s.cmds = []) : step s = .next s := by
  rw [step, takeCommand_nil h]

theorem step_of_cons {s : State} {w : Word} {rest : List Word} (h : s.cmds = w :: rest) :
    step s = perform w { s with cmds := rest } := by
  rw [step, takeCommand_cons h]

theorem illegalWord_halted {s : State} (h : halted s = true) : illegalWord s = .next (refuseHalted s) :=
  unlessHalted_halted h _

/-- Settles O1: the word is taken off the port and decoded, and an illegal one is answered by the halted check. -/
theorem stepPerformsTheNextWord : Obligations.StepPerformsTheNextWord := by
  unfold Obligations.StepPerformsTheNextWord
  intro s w rest hcmds
  rw [step_of_cons hcmds]
  exact ⟨fun i hi => perform_of_decode hi, fun e he h => (perform_of_illegal he).trans (illegalWord_running h),
    fun e he h => (perform_of_illegal he).trans (illegalWord_halted (s := { s with cmds := rest }) h)⟩

/-- Settles O2: no word is taken off the port, so none is performed. -/
theorem stepWaitsWithoutAWord : Obligations.StepWaitsWithoutAWord := fun _ => step_of_nil

/-- What a state keeps while it waits, and what the performance of the next word gives, holds after a step. -/
theorem step_nextSatisfies {P : State → Prop} {s : State} (hwait : P s)
    (hperform : ∀ w rest, s.cmds = w :: rest → NextSatisfies P (perform w { s with cmds := rest })) :
    NextSatisfies P (step s) := by
  cases hcmds : s.cmds with
  | nil =>
    rw [step_of_nil hcmds]
    rintro _ ⟨⟩
    exact hwait
  | cons w rest =>
    rw [step_of_cons hcmds]
    exact hperform w rest hcmds

/-- Settles O49: of the two words a halted block performs, RST clears STATUS and ST.RD reads it; the others are
refused. -/
theorem faultIsStickyUntilRst : Obligations.FaultIsStickyUntilRst := by
  unfold Obligations.FaultIsStickyUntilRst
  intro s t h
  revert t
  change NextSatisfies _ (step s)
  refine step_nextSatisfies (.inl rfl) fun w rest hcmds t hnext => ?_
  by_cases hrst : w = 0xF000
  · subst hrst
    obtain rfl := exec_rst_eq_next.mp ((perform_encode .rst _).symm.trans hnext)
    exact .inr ⟨rest, hcmds, rfl, halted_resetBlock { s with cmds := rest }⟩
  left
  by_cases hstRd : w = 0xF001
  · subst hstRd
    obtain rfl := answer_eq_next.mp ((perform_encode .stRd _).symm.trans hnext)
    rfl
  · rw [perform_halted (s := { s with cmds := rest }) h hrst hstRd] at hnext
    cases hnext
    rfl

end Sys2Proof.Machine
end

section
/-! ## What every step keeps: the canonical memories and the invariant (R14 to R20) -/

namespace Sys2Proof.Machine

/-- Both memories are in the canonical form. -/
def MemoriesWf (s : State) : Prop := s.pay.wf PAY_CAP = true ∧ s.pkt.wf PKT_CAP = true

theorem packetLength_le (prof : Profile) (mode : IntegrityMode) : packetLength prof mode ≤ PKT_CAP := by
  cases prof <;> cases mode <;> decide

theorem writes_keeps_memoriesWf {s t : State} {i : Instr} (hs : MemoriesWf s) (hwrites : Writes s i t) :
    MemoriesWf t := by
  obtain ⟨hpay, hpkt⟩ := hs
  cases hwrites with
  | payPush b hbelow => exact ⟨Memory.wf_write b hpay hbelow, hpkt⟩
  | pktPush b hbelow => exact ⟨hpay, Memory.wf_write b hpkt hbelow⟩
  | enc seq prof mode hlength => exact ⟨hpay, Memory.wf_cellsFrom (hlength.trans_le (packetLength_le prof mode))⟩
  | payClr => exact ⟨rfl, hpkt⟩
  | pktClr => exact ⟨hpay, rfl⟩
  | rst => exact ⟨rfl, rfl⟩
  | _ => exact ⟨hpay, hpkt⟩

/-- Settles O54: a push writes a cell below the capacity, ENC a packet no longer than PKT, and the other commands
clear a memory or leave it. -/
theorem stepKeepsMemoryForm : Obligations.StepKeepsMemoryForm := by
  intro s t hpay hpkt
  have hs : MemoriesWf s := ⟨hpay, hpkt⟩
  exact step_nextSatisfies (P := MemoriesWf) hs (fun w rest _ => perform_nextSatisfies
    (fun _ _ _ => writes_keeps_memoriesWf (s := { s with cmds := rest }) hs) hs fun _ _ => hs) t

theorem filled_push {m : Memory} {n : BitVec 11} {cap : Nat} (hm : m.filled n.toNat) (h : n.toNat < cap)
    (hcap : cap ≤ 2047) (b : Byte) : (n + 1).toNat ≤ cap ∧ (m.write n.toNat b).filled (n + 1).toNat := by
  rw [toNat_length_succ h hcap]
  exact ⟨h, Memory.filled_write hm b⟩

/-- Every length of a packet fits KLEN's 11 bits (R17). -/
theorem toNat_packet_length {packet : List Byte} (h : packet.length ≤ PKT_CAP) :
    (BitVec.ofNat 11 packet.length).toNat = packet.length :=
  Nat.mod_eq_of_lt (h.trans_lt (by decide))

theorem filled_packet {packet : List Byte} (h : packet.length ≤ PKT_CAP) :
    (BitVec.ofNat 11 packet.length).toNat ≤ PKT_CAP ∧
      (Memory.cellsFrom 0 packet).filled (BitVec.ofNat 11 packet.length).toNat := by
  rw [toNat_packet_length h]
  exact ⟨h, Memory.filled_cellsFrom packet⟩

theorem writes_keeps_inv {s t : State} {i : Instr} (hs : s.Inv) (hwrites : Writes s i t) : t.Inv := by
  obtain ⟨hpay, hpkt, hstatus, hresult⟩ := hs
  cases hwrites with
  | payPush b hbelow =>
    obtain ⟨-, hfilled⟩ := hpay
    exact ⟨filled_push hfilled hbelow (by decide) b, hpkt, hstatus, hresult⟩
  | pktPush b hbelow =>
    obtain ⟨-, hfilled⟩ := hpkt
    exact ⟨hpay, filled_push hfilled hbelow (by decide) b, hstatus, hresult⟩
  | enc seq prof mode hlength =>
    exact ⟨hpay, filled_packet (hlength.trans_le (packetLength_le prof mode)), hstatus, hresult⟩
  | val expseq mode hlegal => exact ⟨hpay, hpkt, hstatus, hlegal⟩
  | payClr => exact ⟨⟨Nat.zero_le _, rfl⟩, hpkt, hstatus, hresult⟩
  | pktClr => exact ⟨hpay, ⟨Nat.zero_le _, rfl⟩, hstatus, hresult⟩
  | rst => exact ⟨⟨Nat.zero_le _, rfl⟩, ⟨Nat.zero_le _, rfl⟩, .head _, .head _⟩
  | _ => exact ⟨hpay, hpkt, hstatus, hresult⟩

theorem takeFault_keeps_inv {s : State} (hs : s.Inv) {f : BlockFault} (hf : f ≠ .halted) : (takeFault f s).Inv := by
  obtain ⟨hpay, hpkt, -, hresult⟩ := hs
  exact ⟨hpay, hpkt, statusLegal_recorded hf, hresult⟩

theorem perform_keeps_inv (w : Word) {s : State} (hs : s.Inv) : NextSatisfies State.Inv (perform w s) :=
  perform_nextSatisfies (fun _ _ _ => writes_keeps_inv hs) hs fun _ => takeFault_keeps_inv hs

theorem step_ends {s : State} (hs : s.Inv) : ∃ t, step s = .next t := by
  cases hcmds : s.cmds with
  | nil => exact ⟨s, step_of_nil hcmds⟩
  | cons w rest =>
    obtain ⟨t, hnext, -⟩ := perform_answersOrFaults (s := { s with cmds := rest }) w hs
    exact ⟨t, (step_of_cons hcmds).trans hnext⟩

/-- Settles O52: under the invariant every word is answered, and the writes of every command and the fault entry keep
it. -/
theorem stepKeepsInvariantAndNeverStops : Obligations.StepKeepsInvariantAndNeverStops := by
  intro s hs
  obtain ⟨t, hnext⟩ := step_ends hs
  have hkeeps : NextSatisfies State.Inv (step s) :=
    step_nextSatisfies hs fun w rest _ => perform_keeps_inv (s := { s with cmds := rest }) w hs
  exact ⟨t, hnext, hkeeps t hnext⟩

/-- Settles O51, by evaluation. -/
theorem resetHasTheInvariant : Obligations.ResetHasTheInvariant := by
  unfold Obligations.ResetHasTheInvariant
  decide

end Sys2Proof.Machine
end

section
/-! ## ENC and then VAL (R72, R82, R83) -/

namespace Sys2Proof.Machine

theorem readRange_packet {packet : List Byte} (h : packet.length ≤ PKT_CAP) :
    (Memory.cellsFrom 0 packet).readRange 0 (BitVec.ofNat 11 packet.length).toNat = some packet := by
  rw [toNat_packet_length h]
  exact Memory.readRange_cellsFrom _ packet 0 fun k _ => by rw [Nat.zero_add, read_packet]

/-- VAL reads back the whole of a packet that ENC stored. -/
theorem exec_val_packet {s : State} {packet : List Byte} (h : halted s = false)
    (hpkt : s.pkt = Memory.cellsFrom 0 packet) (hklen : s.klen = BitVec.ofNat 11 packet.length)
    (hcap : packet.length ≤ PKT_CAP) (e : Byte) (mode : IntegrityMode) :
    exec (.val e mode) s = storeResult (validate crc16 packet e mode) s :=
  exec_val h (by rw [hpkt, hklen, readRange_packet hcap]) e mode

/-- Settles O30: PKT holds the packet and VAL reads all of it, so the round trip of R82 gives both verdicts. -/
theorem encThenValAccepts : Obligations.EncThenValAccepts := by
  unfold Obligations.EncThenValAccepts
  intro s seq prof mode h hs hfits
  obtain ⟨chunk, t, hchunk, hexec, hrunning, hpkt, hklen⟩ := exec_enc_stores h hs seq mode hfits
  have hcap : (encodePacket crc16 seq chunk prof mode).length ≤ PKT_CAP :=
    (encodePacket_length crc16 seq mode hchunk).trans_le (packetLength_le prof mode)
  obtain ⟨haccepted, hduplicate, -⟩ := encodeValidateRoundTrip crc16 seq chunk prof mode hchunk
  refine ⟨t, hexec, ?_, ?_⟩
  · rw [exec_val_packet hrunning hpkt hklen hcap, haccepted]
    cases prof <;> rfl
  · rw [exec_val_packet hrunning hpkt hklen hcap, hduplicate]
    cases prof <;> rfl

end Sys2Proof.Machine
end

section
/-! ## Wide operands and quoted strings in assembler lines (R50, R51, R129) -/

namespace Sys2Proof.Machine

theorem assemble_of_ill_formed {l : AsmLine} (h : l.wellFormed = false) : assemble l = none := by
  rw [assemble, h]
  rfl

theorem wellFormed_of_kinds {m : String} {kinds : List OperandKind} (hm : operandKinds.lookup m = some kinds)
    (operands : List AsmOperand) : (⟨m, operands⟩ : AsmLine).wellFormed = fitAll kinds operands := by
  rw [AsmLine.wellFormed, hm]

/-- A command whose first operand its field cannot hold is refused (R129). -/
theorem assemble_first_wide {m : String} {k : OperandKind} {ks : List OperandKind} {o : AsmOperand}
    (hm : operandKinds.lookup m = some (k :: ks)) (ho : o.fits k = false) (os : List AsmOperand) :
    assemble ⟨m, o :: os⟩ = none := by
  apply assemble_of_ill_formed
  rw [wellFormed_of_kinds hm, fitAll, ho, Bool.false_and]

theorem not_fits_byte {n : Nat} (h : 256 ≤ n) : (AsmOperand.num n).fits .byte = false :=
  decide_eq_false (Nat.not_lt.mpr h)

theorem not_fits_index {n : Nat} (h : 2048 ≤ n) : (AsmOperand.num n).fits .index = false :=
  decide_eq_false (Nat.not_lt.mpr h)

theorem operandKinds_byteCommand :
    ∀ m ∈ ["CRC.UPD", "SUM.UPD", "PAY.PUSH", "PKT.PUSH", "HDR.CLS"], operandKinds.lookup m = some [.byte] := by
  decide

theorem assemble_enc {n : Nat} (h : n < 256) :
    assemble ⟨"ENC", [.num n, .num 128, .word "SUM"]⟩ = some [.enc (BitVec.ofNat 8 n) .p128 .sum] := by
  have hwf : (⟨"ENC", [.num n, .num 128, .word "SUM"]⟩ : AsmLine).wellFormed = true := by
    rw [wellFormed_of_kinds (kinds := [.byte, .profile, .mode]) rfl]
    simp [fitAll, AsmOperand.fits, fitsByte, h]
  rw [assemble, if_pos hwf]
  rfl

theorem encode_enc_p128_sum {n : Nat} (h : n < 256) :
    encode (.enc (BitVec.ofNat 8 n) .p128 .sum) = BitVec.ofNat 16 (0xC000 + n) := by
  have hpattern : 0xC000#16 ||| (modeBit .sum).setWidth 16 <<< 9 ||| (profBit .p128).setWidth 16 <<< 8 = 0xC000#16 := by
    decide
  have hbyte : (BitVec.ofNat 8 n).setWidth 16 = BitVec.ofNat 16 n := by
    rw [← BitVec.toNat_inj, BitVec.toNat_setWidth, BitVec.toNat_ofNat, BitVec.toNat_ofNat, Nat.mod_eq_of_lt h]
  have hor : 0xC000 ||| n = 0xC000 + n := (Nat.two_pow_add_eq_or_of_lt (i := 8) h 0xC0).symm
  rw [encode_enc]
  exact (congrArg₂ (· ||| ·) hpattern hbyte).trans (by rw [← BitVec.ofNat_or, hor])

/-- Settles O9: a line's first operand is held to its kind before anything is encoded, and a number that fits is the low
byte of the word. -/
theorem assemblerRefusesWideOperands : Obligations.AssemblerRefusesWideOperands := by
  unfold Obligations.AssemblerRefusesWideOperands
  exact ⟨fun n hn m hm => assemble_first_wide (operandKinds_byteCommand m hm) (not_fits_byte hn) [],
    fun n hn => assemble_first_wide (ks := []) rfl (not_fits_index hn) [],
    fun n p m hn => assemble_first_wide (ks := [.profile, .mode]) rfl (not_fits_byte hn) [p, m],
    fun n m hn => assemble_first_wide (ks := [.mode]) rfl (not_fits_byte hn) [m],
    fun n hn => ⟨_, assemble_enc hn, encode_enc_p128_sum hn⟩⟩

/-- Operands that follow others stand for the bytes that follow theirs. -/
theorem loads_append {os os' : List AsmOperand} {bs bs' : List Byte} (h : Loads os bs) (h' : Loads os' bs') :
    Loads (os ++ os') (bs ++ bs') := by
  obtain ⟨hfits, hcodes⟩ := h
  obtain ⟨hfits', hcodes'⟩ := h'
  exact ⟨by rw [List.all_append, hfits, hfits', Bool.and_self],
    by rw [List.flatMap_append, hcodes, hcodes', List.map_append]⟩

theorem loads_pieces (pieces : List (Byte ⊕ List Byte)) :
    Loads (pieces.map (Sum.elim (.num ·.toNat) (.text <| ·.map BitVec.toNat)))
      (pieces.flatMap (Sum.elim ([·]) id)) := by
  induction pieces with
  | nil => exact ⟨rfl, rfl⟩
  | cons piece pieces ih =>
    cases piece with
    | inl b => exact loads_append (loads_numbers [b]) ih
    | inr bytes => exact loads_append (loads_text bytes) ih

theorem tokens_in_quotes {chars : List Char} (h : '"' ∉ chars) (run : List Char) :
    tokens (chars ++ ['"']) true run = some [.quoted ((run.reverse ++ chars).map Char.toNat)] := by
  induction chars generalizing run with
  | nil => simp [tokens, flushWord]
  | cons c cs ih =>
    obtain ⟨hc, hcs⟩ := not_or.mp (List.mem_cons.not.mp h)
    rw [List.cons_append, tokens, if_neg (Ne.symm hc), ih hcs]
    simp

/-- Settles O59: each piece loads its bytes, so all of them do, and between quotes the tokens collect every
character. -/
theorem quotedStringsReadAsWritten : Obligations.QuotedStringsReadAsWritten := by
  unfold Obligations.QuotedStringsReadAsWritten
  refine ⟨fun pieces => ?_, fun chars h => ?_, by decide⟩
  · have hloads := loads_pieces pieces
    exact ⟨assemble_payLoad hloads, assemble_pktLoad hloads, assemble_crcOf hloads⟩
  · rw [List.cons_append, tokens]
    simp [tokens_in_quotes h, flushWord]

/-- Settles O7, each example by evaluation. -/
theorem exampleWordsDecodeAndAssemble : Obligations.ExampleWordsDecodeAndAssemble := by
  unfold Obligations.ExampleWordsDecodeAndAssemble
  decide

end Sys2Proof.Machine
end

section
/-! ## The reserved bits of STATUS and RESULT (R14, R15) -/

namespace Sys2Proof.Machine

theorem fields_packResult (rprof : BitVec 1) (reason : BitVec 3) (verdict : BitVec 2) :
    (packResult rprof reason verdict).extractLsb' 0 6 = rprof ++ reason ++ verdict := by
  revert rprof reason verdict
  decide

theorem resultFields_append (v : Word) :
    resultRprof v ++ resultReason v ++ resultVerdict v = v.extractLsb' 0 6 := by
  have hhigh : resultRprof v ++ resultReason v = v.extractLsb' 2 4 :=
    BitVec.extractLsb'_append_extractLsb'_eq_extractLsb' rfl
  rw [hhigh]
  exact BitVec.extractLsb'_append_extractLsb'_eq_extractLsb' rfl

/-- Settles O58: both reads put the register together from its fields, with 0 elsewhere. -/
theorem reservedBitsReadZero : Obligations.ReservedBitsReadZero := by
  unfold Obligations.ReservedBitsReadZero
  refine ⟨fun s => ⟨readStatus s, rfl, ?_⟩, fun s h => ⟨readResult s, exec_resRd h, ?_, reserved_packResult _ _ _⟩⟩
  · obtain ⟨hlow, hhigh⟩ := reserved_packStatus (statusEcode s.status) (statusErr s.status)
    exact ⟨statusErr_packStatus _ _, hlow, statusEcode_packStatus _ _, hhigh⟩
  · rw [readResult, fields_packResult, resultFields_append]

end Sys2Proof.Machine
end

section
/-! ## CRC and SUM beside the packet commands (10_state.md section 2) -/

namespace Sys2Proof.Machine

/-- The commands of the packet path: the encoder, the validator and the buffers. -/
def IsPacketCommand (i : Instr) : Prop :=
  (∃ q p m, i = .enc q p m) ∨ (∃ e m, i = .val e m) ∨ (∃ b, i = .payPush b) ∨ (∃ b, i = .pktPush b) ∨
    (∃ n, i = .pktRd n) ∨ i = .payClr ∨ i = .pktClr

/-- The state with other streaming registers. -/
def withStreaming (c : BitVec 16) (x : BitVec 8) (s : State) : State := { s with crc := c, sum := x }

/-- The outcome with its next state changed. -/
def mapNext (g : State → State) : Result → Result
  | .next t => .next (g t)
  | .fault f => .fault f
  | .refused r => .refused r

section
variable (c : BitVec 16) (x : BitVec 8) (s : State)

@[simp] theorem withStreaming_plen : (withStreaming c x s).plen = s.plen := rfl
@[simp] theorem withStreaming_klen : (withStreaming c x s).klen = s.klen := rfl
@[simp] theorem withStreaming_pay : (withStreaming c x s).pay = s.pay := rfl
@[simp] theorem withStreaming_pkt : (withStreaming c x s).pkt = s.pkt := rfl
@[simp] theorem halted_withStreaming : halted (withStreaming c x s) = halted s := rfl

variable {s} in
theorem unlessHalted_withStreaming {r r' : Result} (h : r' = mapNext (withStreaming c x) r) :
    unlessHalted (withStreaming c x s) r' = mapNext (withStreaming c x) (unlessHalted s r) := by
  subst h
  rw [unlessHalted, unlessHalted, halted_withStreaming]
  split <;> rfl

theorem execPayPush_withStreaming (b : Byte) :
    execPayPush b (withStreaming c x s) = mapNext (withStreaming c x) (execPayPush b s) := by
  refine unlessHalted_withStreaming c x ?_
  rw [withStreaming_plen, withStreaming_pay]
  split
  · rfl
  · cases appendByte PAY_CAP s.pay s.plen.toNat b <;> rfl

theorem execPktPush_withStreaming (b : Byte) :
    execPktPush b (withStreaming c x s) = mapNext (withStreaming c x) (execPktPush b s) := by
  refine unlessHalted_withStreaming c x ?_
  rw [withStreaming_klen, withStreaming_pkt]
  split
  · rfl
  · cases appendByte PKT_CAP s.pkt s.klen.toNat b <;> rfl

theorem execPktRd_withStreaming (n : Index) :
    execPktRd n (withStreaming c x s) = mapNext (withStreaming c x) (execPktRd n s) := by
  refine unlessHalted_withStreaming c x ?_
  rw [withStreaming_klen, withStreaming_pkt]
  split
  · rfl
  · cases s.pkt.read n.toNat <;> rfl

theorem execEnc_withStreaming (seq : Byte) (prof : Profile) (mode : IntegrityMode) :
    execEnc seq prof mode (withStreaming c x s) = mapNext (withStreaming c x) (execEnc seq prof mode s) := by
  refine unlessHalted_withStreaming c x ?_
  rw [withStreaming_plen, withStreaming_pay]
  split
  · rfl
  · cases s.pay.readRange 0 s.plen.toNat <;> rfl

theorem execVal_withStreaming (expseq : Byte) (mode : IntegrityMode) :
    execVal expseq mode (withStreaming c x s) = mapNext (withStreaming c x) (execVal expseq mode s) := by
  refine unlessHalted_withStreaming c x ?_
  rw [withStreaming_klen, withStreaming_pkt]
  cases s.pkt.readRange 0 s.klen.toNat <;> rfl

theorem exec_withStreaming {i : Instr} (hi : IsPacketCommand i) :
    exec i (withStreaming c x s) = mapNext (withStreaming c x) (exec i s) := by
  rcases hi with ⟨q, p, m, rfl⟩ | ⟨e, m, rfl⟩ | ⟨b, rfl⟩ | ⟨b, rfl⟩ | ⟨n, rfl⟩ | rfl | rfl
  · exact execEnc_withStreaming c x s q p m
  · exact execVal_withStreaming c x s e m
  · exact execPayPush_withStreaming c x s b
  · exact execPktPush_withStreaming c x s b
  · exact execPktRd_withStreaming c x s n
  · exact unlessHalted_withStreaming c x rfl
  · exact unlessHalted_withStreaming c x rfl

end

theorem not_streaming_of_isPacketCommand {i : Instr} (hi : IsPacketCommand i) :
    ¬ (i = .crcClr ∨ (∃ b, i = .crcUpd b) ∨ i = .rst) ∧ ¬ (i = .sumClr ∨ (∃ b, i = .sumUpd b) ∨ i = .rst) := by
  rcases hi with ⟨q, p, m, rfl⟩ | ⟨e, m, rfl⟩ | ⟨b, rfl⟩ | ⟨b, rfl⟩ | ⟨n, rfl⟩ | rfl | rfl <;> simp

/-- Settles O57: each of these commands does the same beside other streaming registers, and none is among those that
write them. -/
theorem packetCommandsIgnoreStreamingRegisters : Obligations.PacketCommandsIgnoreStreamingRegisters := by
  unfold Obligations.PacketCommandsIgnoreStreamingRegisters
  intro i s t c x hi hexec
  obtain ⟨hcrc, hsum, -⟩ := onlyNamedCommandsWrite i s t hexec
  obtain ⟨hnotCrc, hnotSum⟩ := not_streaming_of_isPacketCommand hi
  refine ⟨?_, not_imp_comm.mp hcrc hnotCrc, not_imp_comm.mp hsum hnotSum⟩
  exact (exec_withStreaming c x s hi).trans (by rw [hexec]; rfl)

end Sys2Proof.Machine
end
